-- ==== Sys2Proof/Word.lean ====
section
/-! DEFINITION. The widths of the engine's values (00_scope.md R3, 10_state.md R10, 30_encoding.md R50). -/

namespace Sys2Proof

/-- A 32-bit value: an accumulator, the result register, a resume value (00_scope.md R3: `W = 32`). -/
abbrev Word := BitVec 32

/-- Half of a packed checksum or of a resume value (00_scope.md R3: `HALF = 16`). -/
abbrev Half := BitVec 16

/-- One element of the buffer (30_encoding.md R51, format B). -/
abbrev Byte := BitVec 8

/-- A command word `cw[33:0]` as it stands on the port `cmd` (30_encoding.md R50). -/
abbrev CommandWord := BitVec 34

/-- The block counter's width (10_state.md R16). -/
abbrev Count := BitVec 12

end Sys2Proof
end

