-- ==== Sys2Proof/Syntax.lean ====
section
/-! DEFINITION. The command set: one constructor per row of spec/opcode_table.json (30_encoding.md R52). -/

namespace Sys2Proof

/-- A decoded command with its operands (30_encoding.md R54). Each operand has exactly the width of its field, so a
command that exists here has a legal word: the illegal encodings of R55 are decode faults, never commands. -/
inductive Instr where
  /-- `START`: opens a call for a new checksum (40_session_control.md R65). -/
  | start
  /-- `RESUME`: opens a call that continues the sequence whose checksum is `{hi, lo}` (40_session_control.md R67). -/
  | resume (hi lo : Half)
  /-- `DATA`: absorbs the byte `x` (41_accumulate.md R75). -/
  | data (x : Byte)
  /-- `FINISH`: closes the open call and publishes its checksum (42_finalize.md R85). -/
  | finish
  deriving DecidableEq, Repr

end Sys2Proof
end

