-- ==== Sys2Proof/WellFormed.lean ====
section
/-! DEFINITION. Operand ranges: which numbers may stand as an operand (30_encoding.md R51, R58, R59), and the
well-formed commands. -/

namespace Sys2Proof

/-- A resume value: `0 <= v <= 0xFFFFFFFF` (30_encoding.md R58). -/
def resumeOperandOk (v : Nat) : Bool := decide (v ≤ 0xFFFFFFFF)

/-- A buffer element: `0 <= x <= 0xFF` (30_encoding.md R58). -/
def byteOperandOk (x : Nat) : Bool := decide (x ≤ 0xFF)

/-- A raw word for the directive `WORD`: any value up to `0x3FFFFFFFF` (30_encoding.md R58). -/
def rawWordOk (w : Nat) : Bool := decide (w ≤ 0x3FFFFFFFF)

/-- A character of a `STR` text: the ASCII range 0x20 to 0x7E (30_encoding.md R59). -/
def strCharOk (c : Char) : Bool := decide (0x20 ≤ c.toNat ∧ c.toNat ≤ 0x7E)

/-- A command is well formed when each operand is in the range R58 gives it. The operands' types already hold them
there, so every command is well formed (`Sys2Proof.Laws.wf_all`). -/
def Instr.wf : Instr → Bool
  | .start => true
  | .resume hi lo => resumeOperandOk (hi ++ lo).toNat
  | .data x => byteOperandOk x.toNat
  | .finish => true

end Sys2Proof
end

