-- ==== Sys2Proof/Decode.lean ====
section
/-! DEFINITION. The decoder of 30_encoding.md R54, total on all `2^34` words and rejecting by name; the encoder (R51,
R52); the match and mask rows of R52. -/

namespace Sys2Proof

/-- The two ways a word fails to decode (30_encoding.md R55). -/
inductive DecodeFault where
  /-- `START` or `FINISH` with a nonzero reserved field (60_exceptions.md R116). -/
  | illegalArg
  /-- `DATA` with a nonzero reserved field (60_exceptions.md R117). -/
  | badByte
  deriving DecidableEq, Repr

/-- What the decoder answers: a command with its operands, or a decode fault (30_encoding.md R54). -/
inductive Decoded where
  | command (i : Instr)
  | fault (f : DecodeFault)
  deriving DecidableEq, Repr

/-- `op = cw[33:32]` (30_encoding.md R50). -/
def opOf (cw : CommandWord) : BitVec 2 := cw.extractLsb' 32 2

/-- `arg = cw[31:0]` (30_encoding.md R50). -/
def argOf (cw : CommandWord) : Word := cw.extractLsb' 0 32

/-- `hi = arg[31:16]`, format R (30_encoding.md R51). -/
def hiOf (arg : Word) : Half := arg.extractLsb' 16 16

/-- `lo = arg[15:0]`, format R (30_encoding.md R51). -/
def loOf (arg : Word) : Half := arg.extractLsb' 0 16

/-- `rsvd = arg[31:8]`, format B (30_encoding.md R51). -/
def rsvdOf (arg : Word) : BitVec 24 := arg.extractLsb' 8 24

/-- `byte = arg[7:0]`, format B (30_encoding.md R51). -/
def byteOf (arg : Word) : Byte := arg.extractLsb' 0 8

/-- The decoder (30_encoding.md R54). It reads no state. The last branch is `op = 0b11`. -/
def decode (cw : CommandWord) : Decoded :=
  if opOf cw = 0b00#2 then
    if argOf cw = 0#32 then .command .start else .fault .illegalArg
  else if opOf cw = 0b01#2 then
    .command (.resume (hiOf (argOf cw)) (loOf (argOf cw)))
  else if opOf cw = 0b10#2 then
    if rsvdOf (argOf cw) = 0#24 then .command (.data (byteOf (argOf cw))) else .fault .badByte
  else
    if argOf cw = 0#32 then .command .finish else .fault .illegalArg

/-- The word of a command: formats N, R, B of 30_encoding.md R51 under the opcodes of R52. -/
def encode : Instr → CommandWord
  | .start => 0b00#2 ++ 0#32
  | .resume hi lo => 0b01#2 ++ (hi ++ lo)
  | .data x => 0b10#2 ++ (0#24 ++ x)
  | .finish => 0b11#2 ++ 0#32

/-- One row of the match and mask table of 30_encoding.md R52. -/
structure PatternRow where
  mnemonic : String
  mask : CommandWord
  pattern : CommandWord
  deriving DecidableEq, Repr

/-- The four rows of 30_encoding.md R52, in the order of spec/opcode_table.json. -/
def patternTable : List PatternRow :=
  [⟨"START", 0x3FFFFFFFF, 0x000000000⟩, ⟨"RESUME", 0x300000000, 0x100000000⟩,
   ⟨"DATA", 0x3FFFFFF00, 0x200000000⟩, ⟨"FINISH", 0x3FFFFFFFF, 0x300000000⟩]

/-- A word is the row's command when `cw & mask == match` (30_encoding.md R52). -/
def PatternRow.hits (r : PatternRow) (cw : CommandWord) : Bool := decide (cw &&& r.mask = r.pattern)

/-- A word is legal when it matches one of the four rows (30_encoding.md R52, R55). -/
def legalWord (cw : CommandWord) : Bool := patternTable.any (fun r => r.hits cw)

/-- The mnemonic of a command (30_encoding.md R52). -/
def mnemonicOf : Instr → String
  | .start => "START"
  | .resume _ _ => "RESUME"
  | .data _ => "DATA"
  | .finish => "FINISH"

/-- The command word that stands in the low bits of a table number `w` of `nbits` bits: bit 0 of `w` is bit 0 of the
word (spec/98_reader.md). `none` where the number has a bit above bit 33, which the 34-bit port does not have
(30_encoding.md R50; log entry 12). -/
def portWord (nbits w : Nat) : Option CommandWord :=
  if w % 2 ^ nbits < 2 ^ 34 then some (BitVec.ofNat 34 (w % 2 ^ nbits)) else none

/-- The instruction the decoder reads from a word numbered as spec/opcode_table.json numbers it. -/
def decodeTableWord (nbits w : Nat) : Option Instr :=
  match portWord nbits w with
  | none => none
  | some cw =>
    match decode cw with
    | .command i => some i
    | .fault _ => none

end Sys2Proof
end

