-- ==== Sys2Proof/Config.lean ====
section
/-! DEFINITION. The engine's fixed parameters (00_scope.md R3, R5) and the free values a reset event draws
(10_state.md R26). -/

namespace Sys2Proof

/-- `BASE`, the modulus of both running sums (00_scope.md R3). -/
abbrev Config.base : Word := 65521

/-- `K = 2^16 mod 65521`, the multiplier of the shift-reduction (00_scope.md R3). -/
abbrev Config.k : Word := 15

/-- `NMAX`, the largest number of bytes absorbed between two reductions (00_scope.md R3, R4). -/
abbrev Config.nmax : Count := 3850

/-- `INIT_A`, the low accumulator of a fresh checksum (00_scope.md R3). -/
abbrev Config.initA : Word := 1

/-- `INIT_B`, the high accumulator of a fresh checksum (00_scope.md R3). -/
abbrev Config.initB : Word := 0

/-- The value the spec takes for the build-time strap `LEGACY_SEED` (00_scope.md R5, decision D7). The strap itself is
a field of State that nothing writes, so that the engine built with `true` is modelled too (log entry 4). -/
def Config.legacySeed : Bool := false

/-- FREE VALUE (log entry 3): what the register `a` holds after the `n`-th reset event (10_state.md R26: unspecified). -/
opaque Config.resetA : Nat → Word

/-- FREE VALUE (log entry 3): what the register `b` holds after the `n`-th reset event (10_state.md R26: unspecified). -/
opaque Config.resetB : Nat → Word

/-- FREE VALUE (log entry 3): what the register `cnt` holds after the `n`-th reset event (10_state.md R26: unspecified). -/
opaque Config.resetCnt : Nat → Count

/-- FREE VALUE (log entry 3): what the register `sum` holds after the `n`-th reset event (10_state.md R26: unspecified). -/
opaque Config.resetSum : Nat → Word

end Sys2Proof
end

