-- ==== Sys2Proof/Machine/State.lean ====
section
/-! DEFINITION. The state of one engine: the eight registers of 10_state.md R10, the two streams of 20_memory.md R30
(input words, output history), the build-time strap of 00_scope.md R5; the state after reset. -/

namespace Sys2Proof.Machine

/-- The three phases (10_state.md R15). The 2-bit code 3 is never written by any rule, so it has no constructor
(log entry 6). -/
inductive Phase where
  /-- `IDLE` (0): no call is open. -/
  | idle
  /-- `ACTIVE` (1): a call is open. -/
  | active
  /-- `FAULT` (2): a fault has been taken; every command is discarded. -/
  | fault
  deriving DecidableEq, Repr

/-- One event of the input stream (20_memory.md R32, 70_reset_and_hazards.md R155). -/
inductive InputEvent where
  /-- The word `cw` is accepted on the command port. -/
  | word (cw : CommandWord)
  /-- A reset (70_reset_and_hazards.md R140). -/
  | reset
  deriving DecidableEq, Repr

/-- What would stop the machine for good. Nothing in the spec does: the engine's own faults (60_exceptions.md R115)
are taken and it goes on accepting words (R121), and it is never stuck (20_memory.md R46). So no constructor
(log entry 10); safe, because no step ends here. -/
inductive Fault where
  deriving DecidableEq, Repr

/-- Reasons a step has no meaning in the model. -/
inductive Refusal where
  /-- Raised only by an arm of `exec` for a command that has no meaning yet; no arm does (safe: nothing is claimed). -/
  | notModelled (mnemonic : String)
  deriving DecidableEq, Repr

/-- The whole state of one engine. -/
@[ext]
structure State where
  /-- The low accumulator (10_state.md R11). -/
  a : Word
  /-- The high accumulator (10_state.md R12). -/
  b : Word
  /-- Bytes absorbed since the last reduction of the open call (10_state.md R16). -/
  cnt : Count
  /-- The sequencing phase (10_state.md R15). -/
  phase : Phase
  /-- The packed checksum of the last finished call (10_state.md R18). -/
  sum : Word
  /-- `sum` holds the checksum of the last finished call and no later call has been opened (10_state.md R19). -/
  done : Bool
  /-- A fault has been taken since reset (10_state.md R20). -/
  err : Bool
  /-- The cause code of the first fault since reset (10_state.md R21). -/
  errCode : BitVec 2
  /-- The output history, oldest first (20_memory.md R36). -/
  history : List Word
  /-- The input events still to come, next first (20_memory.md R30, R40; log entry 1). -/
  input : List InputEvent
  /-- The strap `LEGACY_SEED`, fixed at build time (00_scope.md R5; log entry 4). -/
  legacySeed : Bool
  /-- The MODEL's own field: the number of reset events so far, which picks the free values the next one leaves in
  `a`, `b`, `cnt`, `sum` (log entry 3). -/
  resetDraws : Nat
  deriving DecidableEq, Repr

/-- The engine right after reset (10_state.md R26): `IDLE`, `done`, `err`, `err_code` 0. The spec gives `a`, `b`,
`cnt`, `sum` no value and wants neither zero nor the fresh values: they are all ones here (log entry 2, DESIGN CHOICE).
No input stands before the engine and the history is empty (20_memory.md R36). -/
def State.reset : State where
  a := 0xFFFFFFFF#32
  b := 0xFFFFFFFF#32
  cnt := 0xFFF#12
  phase := .idle
  sum := 0xFFFFFFFF#32
  done := false
  err := false
  errCode := 0#2
  history := []
  input := []
  legacySeed := Config.legacySeed
  resetDraws := 0

end Sys2Proof.Machine
end

