-- ==== Sys2Proof/Machine/Flags.lean ====
section
/-! DEFINITION. The flags: who writes `done`, `err`, `err_code` (10_state.md R19 to R21), the fault causes and their
codes (60_exceptions.md R115), the phase codes (10_state.md R15) and the outputs (20_memory.md R33). -/

namespace Sys2Proof.Machine

/-- The three fault causes (60_exceptions.md R115). -/
inductive Cause where
  | illegalArg
  | badByte
  | seqErr
  deriving DecidableEq, Repr

/-- The cause codes (60_exceptions.md R115). -/
def Cause.code : Cause → BitVec 2
  | .illegalArg => 1#2
  | .badByte => 2#2
  | .seqErr => 3#2

/-- The 2-bit encoding of `phase` (10_state.md R15). -/
def Phase.code : Phase → BitVec 2
  | .idle => 0#2
  | .active => 1#2
  | .fault => 2#2

/-- `START` and `RESUME` clear `done` (10_state.md R19). -/
def clearDone (s : State) : State := { s with done := false }

/-- `FINISH` sets `done` (10_state.md R19). -/
def setDone (s : State) : State := { s with done := true }

/-- A fault sets `err` and records its cause (10_state.md R20, R21). -/
def recordCause (c : Cause) (s : State) : State := { s with err := true, errCode := c.code }

/-- Reset clears `done`, `err` and `err_code` (10_state.md R26). -/
def clearFlags (s : State) : State := { s with done := false, err := false, errCode := 0#2 }

/-- `active = 1` exactly when `phase = ACTIVE` (10_state.md R22). -/
def activeOut (s : State) : Bool := decide (s.phase = .active)

/-- The five outputs, driven at all times (20_memory.md R31, R33). -/
structure Outputs where
  sum : Word
  done : Bool
  active : Bool
  err : Bool
  errCode : BitVec 2
  deriving DecidableEq, Repr

/-- The outputs as functions of the state (20_memory.md R33). -/
def outputsOf (s : State) : Outputs :=
  { sum := s.sum, done := s.done, active := activeOut s, err := s.err, errCode := s.errCode }

/-- The result a host may take: `sum` while `done = 1`, nothing otherwise (10_state.md R18, 20_memory.md R33). -/
def resultOf (s : State) : Option Word := if s.done then some s.sum else none

/-- The phase a host reads off (`active`, `err`); (1, 1) never occurs (10_state.md R22). -/
def phaseSeen (active err : Bool) : Option Phase :=
  match active, err with
  | false, false => some .idle
  | true, false => some .active
  | false, true => some .fault
  | true, true => none

end Sys2Proof.Machine
end

