-- ==== Sys2Proof/Machine/Operands.lean ====
section
/-! DEFINITION. The operand forms (30_encoding.md R53): slices of `arg`, zero-extended to 32 bits and nothing else. -/

namespace Sys2Proof.Machine

/-- `zext_32(v)` (00_scope.md R8). -/
def zext32 {n : Nat} (v : BitVec n) : Word := v.setWidth 32

/-- `lo = zext_32(arg[15:0])`, the low seed of `RESUME` (30_encoding.md R53, 40_session_control.md R67). -/
def resumeLow (lo : Half) : Word := zext32 lo

/-- The high seed of `RESUME`: `zext_32(arg[31:16])`, or 0 with the strap `LEGACY_SEED` (40_session_control.md R67,
R69). -/
def resumeHigh (legacySeed : Bool) (hi : Half) : Word := if legacySeed then 0#32 else zext32 hi

/-- `x = zext_32(arg[7:0])`, the addend of `DATA` (30_encoding.md R53, 41_accumulate.md R75). -/
def dataByte (x : Byte) : Word := zext32 x

end Sys2Proof.Machine
end

