-- ==== Sys2Proof/Machine/Ops.lean ====
section
/-! DEFINITION. The shared operations: arithmetic on the accumulators (44_arithmetic_laws.md R96 to R99), opening a
call, absorbing a byte, closing a call, taking a fault (60_exceptions.md R120), discarding (R121), reset
(70_reset_and_hazards.md R140), taking the next input event. -/

namespace Sys2Proof.Machine

/-- The shift-reduction `red(v) = 15 * (v >> 16) + (v & 0xFFFF)` (44_arithmetic_laws.md R96). -/
def red (v : Word) : Word := Config.k * (v >>> 16) + (v &&& 0xFFFF#32)

/-- `v mod 65521` (44_arithmetic_laws.md R98). -/
def modBase (v : Word) : Word := v % Config.base

/-- `(b << 16) | a` (42_finalize.md R85, 44_arithmetic_laws.md R99). -/
def packHalves (b a : Word) : Word := (b <<< 16) ||| a

/-- Opening a call with the given seeds: the five writes of 40_session_control.md R65 and R67. -/
def openCall (seedA seedB : Word) (s : State) : State :=
  { clearDone s with a := seedA, b := seedB, cnt := 0#12, phase := .active }

/-- The block reduction (41_accumulate.md R76): both accumulators are shift-reduced and a new block begins. -/
def blockReduce (s : State) : State := { s with a := red s.a, b := red s.b, cnt := 0#12 }

/-- The two additions, in that order, and the count (41_accumulate.md R75): `b` adds the NEW `a`. -/
def addByte (x : Byte) (s : State) : State :=
  { s with a := s.a + dataByte x, b := s.b + (s.a + dataByte x), cnt := s.cnt + 1#12 }

/-- Absorbing a byte: the additions, then the block reduction when the block has `NMAX` bytes (41_accumulate.md R75,
R76). -/
def absorb (x : Byte) (s : State) : State :=
  if (addByte x s).cnt = Config.nmax then blockReduce (addByte x s) else addByte x s

/-- The reduction of an accumulator at `FINISH`: `red` when the last block is not empty, then `mod 65521`
(42_finalize.md R85, steps 1 and 2). -/
def finalReduce (cnt : Count) (v : Word) : Word := modBase (if cnt = 0#12 then v else red v)

/-- `emit Result(v)` (20_memory.md R36). -/
def emitResult (v : Word) (s : State) : State := { s with history := s.history ++ [v] }

/-- The result `FINISH` publishes (42_finalize.md R85, step 3). -/
def callResult (s : State) : Word := packHalves (finalReduce s.cnt s.b) (finalReduce s.cnt s.a)

/-- Closing a call: all writes of 42_finalize.md R85, step 4. -/
def closeCall (s : State) : State :=
  { emitResult (callResult s) (setDone s) with
    a := finalReduce s.cnt s.a, b := finalReduce s.cnt s.b, cnt := 0#12, sum := callResult s, phase := .idle }

/-- Taking a fault (60_exceptions.md R120): `phase`, `err`, `err_code` are written and nothing else. The engine has no
return from a fault (R121): only `applyReset` leaves `FAULT`. -/
def takeFault (c : Cause) (s : State) : State := { recordCause c s with phase := .fault }

/-- The cause of a decode fault (30_encoding.md R55). -/
def causeOf : DecodeFault → Cause
  | .illegalArg => .illegalArg
  | .badByte => .badByte

/-- The phase check every command goes through (60_exceptions.md R118, R121, R122): in `FAULT` it is discarded, in the
phase it is permitted in it has its effect, in the other phase it takes `SEQ_ERR`. -/
def inPhase (permitted : Phase) (effect : State → State) (s : State) : State :=
  if s.phase = .fault then s else if s.phase = permitted then effect s else takeFault .seqErr s

/-- Reset (70_reset_and_hazards.md R140, 10_state.md R26): `IDLE`, flags clear, and free values in the four registers
the spec leaves unspecified (log entry 3). The history and the strap stay (20_memory.md R36, 00_scope.md R5). -/
def applyReset (s : State) : State :=
  { clearFlags s with
    a := Config.resetA s.resetDraws, b := Config.resetB s.resetDraws, cnt := Config.resetCnt s.resetDraws
    sum := Config.resetSum s.resetDraws, phase := .idle, resetDraws := s.resetDraws + 1 }

/-- The state with its input stream replaced. -/
def withInput (evs : List InputEvent) (s : State) : State := { s with input := evs }

/-- The next input event, and the state from which it has been taken (20_memory.md R40: order of acceptance). -/
def takeInput (s : State) : Option (InputEvent × State) :=
  match s.input with
  | [] => none
  | ev :: rest => some (ev, withInput rest s)

/-- A word put in front of the input stream: the next one to be accepted. -/
def presentWord (cw : CommandWord) (s : State) : State := withInput (.word cw :: s.input) s

/-- `presentWord` of a number as the opcode table numbers it; a number that does not fit the port presents nothing
(log entry 12). -/
def presentTableWord (nbits w : Nat) (s : State) : State :=
  match portWord nbits w with
  | some cw => presentWord cw s
  | none => s

end Sys2Proof.Machine
end

