-- ==== Sys2Proof/Machine/Accumulate.lean ====
section
/-! DEFINITION. The meaning of `DATA` (41_accumulate.md). -/

namespace Sys2Proof.Machine

/-- `DATA` (41_accumulate.md R75, R76). -/
def execData (x : Byte) (s : State) : Host.Outcome State Fault Refusal :=
  .next (inPhase .active (absorb x) s)

end Sys2Proof.Machine
end

