-- ==== Sys2Proof/Machine/Finalize.lean ====
section
/-! DEFINITION. The meaning of `FINISH` (42_finalize.md). -/

namespace Sys2Proof.Machine

/-- `FINISH` (42_finalize.md R85). -/
def execFinish (s : State) : Host.Outcome State Fault Refusal :=
  .next (inPhase .active closeCall s)

end Sys2Proof.Machine
end

