-- ==== Sys2Proof/Machine/Session.lean ====
section
/-! DEFINITION. The meanings of `START` and `RESUME` (40_session_control.md). -/

namespace Sys2Proof.Machine

/-- `START` (40_session_control.md R65). -/
def execStart (s : State) : Host.Outcome State Fault Refusal :=
  .next (inPhase .idle (openCall Config.initA Config.initB) s)

/-- `RESUME` (40_session_control.md R67, R69): the halves as they are, unreduced and unchecked. -/
def execResume (hi lo : Half) (s : State) : Host.Outcome State Fault Refusal :=
  .next (inPhase .idle (openCall (resumeLow lo) (resumeHigh s.legacySeed hi)) s)

end Sys2Proof.Machine
end

