-- ==== Sys2Proof/Machine/Dispatch.lean ====
section
/-! DEFINITION. One arm per command (60_exceptions.md R122). -/

namespace Sys2Proof.Machine

def exec (i : Instr) (s : State) : Host.Outcome State Fault Refusal :=
  match i with
  | .start => Sys2Proof.Machine.execStart s
  | .resume hi lo => Sys2Proof.Machine.execResume hi lo s
  | .data x => Sys2Proof.Machine.execData x s
  | .finish => Sys2Proof.Machine.execFinish s

end Sys2Proof.Machine
end

