-- ==== Sys2Proof/Machine/Accept.lean ====
section
/-! DEFINITION. Accepting one command word: the step function of 60_exceptions.md R122, with the order of checks of
R119; applying one input event. -/

namespace Sys2Proof.Machine

/-- The step function of 60_exceptions.md R122: discard in `FAULT`, then the decode check, then the command (whose
meaning holds the phase check). -/
def acceptWord (cw : CommandWord) (s : State) : Host.Outcome State Fault Refusal :=
  if s.phase = .fault then .next s
  else
    match decode cw with
    | .fault f => .next (takeFault (causeOf f) s)
    | .command i => exec i s

/-- One input event: an accepted word or a reset (70_reset_and_hazards.md R140, R155). -/
def applyEvent : InputEvent → State → Host.Outcome State Fault Refusal
  | .word cw, s => acceptWord cw s
  | .reset, s => .next (applyReset s)

/-- The engine with its next input event, or left as it is when the host presents nothing
(70_reset_and_hazards.md R154: state is kept indefinitely). -/
def takeStep (s : State) : Host.Outcome State Fault Refusal :=
  match takeInput s with
  | none => .next s
  | some (ev, s') => applyEvent ev s'

/-- A sequence of input events, applied one after the other, each completely (20_memory.md R40: the left fold). -/
def runEvents : List InputEvent → State → Host.Outcome State Fault Refusal
  | [], s => .next s
  | ev :: evs, s =>
    match applyEvent ev s with
    | .next t => runEvents evs t
    | .fault r => .fault r
    | .refused r => .refused r

end Sys2Proof.Machine
end

