-- ==== Sys2Proof/Machine/Step.lean ====
section
/-! DEFINITION. The step, and how a word comes to be the next one accepted. -/

namespace Sys2Proof.Machine

/-- One step (20_memory.md R40, 60_exceptions.md R122). -/
def step (s : State) : Host.Outcome State Fault Refusal := takeStep s

/-- `s` with the instruction whose bits are `w` presented as the next word of the input stream: the very next step
accepts and runs it. Nothing else changes; the words already waiting follow it (log entry 1). A number with a bit above
bit 33 is no command word and presents nothing (log entry 12). -/
def State.withFetchWord (s : State) (nbits w : Nat) : State := presentTableWord nbits w s

end Sys2Proof.Machine
end

