-- ==== Sys2Proof/Machine/Reference.lean ====
section
/-! DEFINITION. What the engine is to compute, over the natural numbers (44_arithmetic_laws.md R102), and which word
sequences are well formed (30_encoding.md R61). Nothing here is used by the machine. -/

namespace Sys2Proof.Machine

/-- `x1 + x2 + ... + xn` (44_arithmetic_laws.md R102). -/
def byteSum : List Byte → Nat
  | [] => 0
  | x :: xs => x.toNat + byteSum xs

/-- `n*x1 + (n-1)*x2 + ... + 1*xn` (44_arithmetic_laws.md R102). -/
def weightedSum : List Byte → Nat
  | [] => 0
  | x :: xs => (xs.length + 1) * x.toNat + weightedSum xs

/-- `A(r, B)` (44_arithmetic_laws.md R102). -/
def adlerLow (r : Word) (bs : List Byte) : Nat := ((loOf r).toNat + byteSum bs) % 65521

/-- `H(r, B)` (44_arithmetic_laws.md R102). -/
def adlerHigh (r : Word) (bs : List Byte) : Nat :=
  ((hiOf r).toNat + bs.length * (loOf r).toNat + weightedSum bs) % 65521

/-- `Adler(r, B)` (44_arithmetic_laws.md R102). -/
def adlerNat (r : Word) (bs : List Byte) : Nat := 65536 * adlerHigh r bs + adlerLow r bs

/-- `Adler(r, B)` as the 32-bit value a result is. -/
def adler (r : Word) (bs : List Byte) : Word := BitVec.ofNat 32 (adlerNat r bs)

/-- The loop `for each x: a = a + x; b = b + a` in unbounded arithmetic (44_arithmetic_laws.md R102): the pair
`(a, b)`. -/
def adlerLoop : Nat × Nat → List Byte → Nat × Nat
  | ab, [] => ab
  | ab, x :: xs => adlerLoop (ab.1 + x.toNat, ab.2 + (ab.1 + x.toNat)) xs

/-- `red` on the natural numbers (44_arithmetic_laws.md R96). -/
def redNat (v : Nat) : Nat := 15 * (v / 65536) + v % 65536

/-- One invocation of the source's `compute`: an optional resume value and a buffer (20_memory.md R35). -/
structure Call where
  resume : Option Word
  bytes : List Byte
  deriving DecidableEq, Repr

/-- The resume value a call stands for: absent means the initial value 1 (40_session_control.md R68,
44_arithmetic_laws.md R103). -/
def callSeed (c : Call) : Word := c.resume.getD 1#32

/-- The opening command: `START` where `resume` is absent, `RESUME v` where it is present (20_memory.md R35). -/
def openingInstr (resume : Option Word) : Instr :=
  match resume with
  | none => .start
  | some v => .resume (hiOf v) (loOf v)

/-- The words of a call that has not been finished (30_encoding.md R61). -/
def unfinishedWords (c : Call) : List CommandWord :=
  encode (openingInstr c.resume) :: c.bytes.map (fun x => encode (.data x))

/-- The words of a call (30_encoding.md R61, 20_memory.md R35). -/
def callWords (c : Call) : List CommandWord := unfinishedWords c ++ [encode .finish]

/-- The call grammar of 30_encoding.md R61: finished calls, optionally followed by an unfinished one. -/
def inGrammar (ws : List CommandWord) : Prop :=
  ∃ (calls : List Call) (last : Option Call),
    ws = calls.flatMap callWords ++ (last.map unfinishedWords).getD []

end Sys2Proof.Machine
end

