-- ==== Sys2Proof/Machine/Assembler.lean ====
section
/-! DEFINITION. The spec's assembler notation (30_encoding.md R58 to R60): lines, their words, and the text of a line.
Nothing here is used by the machine. -/

namespace Sys2Proof.Machine

/-- One line of assembler: the four commands, the raw directive and the pseudo-instructions (30_encoding.md R58, R59,
R60). Operands are numbers; whether they are in range is `AsmLine.wf`. -/
inductive AsmLine where
  | start
  | resume (v : Nat)
  | data (x : Nat)
  | finish
  | word (w : Nat)
  | bytes (xs : List Nat)
  | str (text : List Char)
  | rep (n x : Nat)
  | compute (xs : List Nat) (v : Option Nat)
  deriving DecidableEq, Repr

/-- The operand ranges of 30_encoding.md R58 and R59. DESIGN CHOICE (log entry 14): the byte of `REP n, x` is
range-checked also for `n = 0`, where R59 expands the line to no `DATA` and does not say whether `x` is checked. -/
def AsmLine.wf : AsmLine → Bool
  | .start => true
  | .resume v => resumeOperandOk v
  | .data x => byteOperandOk x
  | .finish => true
  | .word w => rawWordOk w
  | .bytes xs => xs.all byteOperandOk
  | .str text => text.all strCharOk
  | .rep _ x => byteOperandOk x
  | .compute xs v => xs.all byteOperandOk && (v.map resumeOperandOk).getD true

/-- `RESUME v` encodes as `0x100000000 + v` (30_encoding.md R58). -/
def resumeWord (v : Nat) : CommandWord := BitVec.ofNat 34 (0x100000000 + v)

/-- `DATA x` encodes as `0x200000000 + x` (30_encoding.md R58). -/
def dataWord (x : Nat) : CommandWord := BitVec.ofNat 34 (0x200000000 + x)

/-- The words a well-formed line stands for (30_encoding.md R58 to R60). -/
def lineWords : AsmLine → List CommandWord
  | .start => [0x000000000#34]
  | .resume v => [resumeWord v]
  | .data x => [dataWord x]
  | .finish => [0x300000000#34]
  | .word w => [BitVec.ofNat 34 w]
  | .bytes xs => xs.map dataWord
  | .str text => text.map (fun c => dataWord c.toNat)
  | .rep n x => List.replicate n (dataWord x)
  | .compute xs none => 0x000000000#34 :: xs.map dataWord ++ [0x300000000#34]
  | .compute xs (some v) => resumeWord v :: xs.map dataWord ++ [0x300000000#34]

/-- The assembler: it rejects an operand out of range (30_encoding.md R58). -/
def assembleLine (l : AsmLine) : Option (List CommandWord) := if l.wf then some (lineWords l) else none

/-- A program is its lines' words in order. -/
def assemble : List AsmLine → Option (List CommandWord)
  | [] => some []
  | l :: ls => do
    let ws ← assembleLine l
    let rest ← assemble ls
    pure (ws ++ rest)

/-! The text of a line (30_encoding.md R58; what R58 leaves open of it is log entry 14). -/

/-- A lexical unit of a line. -/
inductive Token where
  | name (cs : List Char)
  | num (n : Nat)
  | text (cs : List Char)
  | punct (c : Char)
  deriving DecidableEq, Repr

/-- A decimal digit's value. -/
def decDigit (c : Char) : Option Nat :=
  if 0x30 ≤ c.toNat ∧ c.toNat ≤ 0x39 then some (c.toNat - 0x30) else none

/-- A hexadecimal digit's value, either case. -/
def hexDigit (c : Char) : Option Nat :=
  if 0x41 ≤ c.toNat ∧ c.toNat ≤ 0x46 then some (c.toNat - 0x41 + 10)
  else if 0x61 ≤ c.toNat ∧ c.toNat ≤ 0x66 then some (c.toNat - 0x61 + 10)
  else decDigit c

/-- The number a list of digits writes in a base; no digit at all is no number. -/
def digitsValue (base : Nat) (digit : Char → Option Nat) : List Char → Option Nat
  | [] => none
  | cs => cs.foldlM (fun acc c => (digit c).map (fun d => base * acc + d)) 0

/-- A number, decimal or `0x` hexadecimal (30_encoding.md R58). -/
def numberOf : List Char → Option Nat
  | '0' :: 'x' :: cs => digitsValue 16 hexDigit cs
  | cs => digitsValue 10 decDigit cs

/-- A word of a line: a number where it begins with a digit, a name otherwise. -/
def wordToken (cs : List Char) : Option Token :=
  match cs with
  | [] => none
  | c :: _ => if (decDigit c).isSome then (numberOf cs).map Token.num else some (.name cs)

/-- Where the reader of a line stands: between words, inside a word, inside a quoted text, after a `;`. The letters
read so far are kept last first. -/
inductive LexMode where
  | gap
  | word (acc : List Char)
  | text (acc : List Char)
  | comment
  deriving DecidableEq, Repr

/-- A character read between words. -/
def gapChar (c : Char) : LexMode × List Token :=
  if c = ' ' ∨ c = '\t' then (.gap, [])
  else if c = ';' then (.comment, [])
  else if c = '"' then (.text [], [])
  else if c = ',' ∨ c = '[' ∨ c = ']' then (.gap, [.punct c])
  else (.word [c], [])

/-- One character of a line: the new mode and the tokens it completes. DESIGN CHOICE (log entry 14): a `;` inside the
quotes of `STR` is a character of the text (R59 admits it), and only a `;` outside quotes starts a comment (R58). -/
def lexChar (mode : LexMode) (c : Char) : Option (LexMode × List Token) :=
  match mode with
  | .gap => some (gapChar c)
  | .comment => some (.comment, [])
  | .text acc => if c = '"' then some (.gap, [.text acc.reverse]) else some (.text (c :: acc), [])
  | .word acc =>
    match gapChar c with
    | (.word _, _) => some (.word (c :: acc), [])
    | (mode', toks) => (wordToken acc.reverse).map (fun t => (mode', t :: toks))

/-- The tokens of a line; `none` for a text left open or a word that is neither number nor name. -/
def lexLine : LexMode → List Char → Option (List Token)
  | .gap, [] => some []
  | .comment, [] => some []
  | .text _, [] => none
  | .word acc, [] => (wordToken acc.reverse).map (fun t => [t])
  | mode, c :: cs => do
    let (mode', toks) ← lexChar mode c
    let rest ← lexLine mode' cs
    pure (toks ++ rest)

/-- Numbers separated by commas, after the first. -/
def numbersTail : List Token → List Nat × List Token
  | .punct ',' :: .num n :: ts => ((n :: (numbersTail ts).1), (numbersTail ts).2)
  | ts => ([], ts)

/-- A possibly empty list of numbers separated by commas, and what follows it. -/
def numbers : List Token → List Nat × List Token
  | .num n :: ts => ((n :: (numbersTail ts).1), (numbersTail ts).2)
  | ts => ([], ts)

/-- The line that tokens after the name `BYTES` make (30_encoding.md R59). -/
def bytesLine (ts : List Token) : Option AsmLine :=
  match numbers ts with
  | (xs, []) => some (.bytes xs)
  | _ => none

/-- The line that tokens after `COMPUTE [` make (30_encoding.md R60). -/
def computeLine (ts : List Token) : Option AsmLine :=
  match numbers ts with
  | (xs, [.punct ']']) => some (.compute xs none)
  | (xs, [.punct ']', .punct ',', .num v]) => some (.compute xs (some v))
  | _ => none

/-- The line that tokens make: mnemonics are upper case (30_encoding.md R58 to R60). -/
def lineOf : List Token → Option AsmLine
  | [.name ['S', 'T', 'A', 'R', 'T']] => some .start
  | [.name ['R', 'E', 'S', 'U', 'M', 'E'], .num v] => some (.resume v)
  | [.name ['D', 'A', 'T', 'A'], .num x] => some (.data x)
  | [.name ['F', 'I', 'N', 'I', 'S', 'H']] => some .finish
  | [.name ['W', 'O', 'R', 'D'], .num w] => some (.word w)
  | [.name ['S', 'T', 'R'], .text cs] => some (.str cs)
  | [.name ['R', 'E', 'P'], .num n, .punct ',', .num x] => some (.rep n x)
  | .name ['B', 'Y', 'T', 'E', 'S'] :: ts => bytesLine ts
  | .name ['C', 'O', 'M', 'P', 'U', 'T', 'E'] :: .punct '[' :: ts => computeLine ts
  | _ => none

/-- The commands of one line of text: none for a blank or comment line (30_encoding.md R58). -/
def parseLine (cs : List Char) : Option (List AsmLine) := do
  let ts ← lexLine .gap cs
  match ts with
  | [] => pure []
  | ts => (lineOf ts).map (fun l => [l])

/-- A hexadecimal digit's character, upper case. -/
def hexChar (n : Nat) : Char := if n < 10 then Char.ofNat (0x30 + n) else Char.ofNat (0x41 + (n - 10))

/-- The last `k` hexadecimal digits of a number, most significant first. -/
def hexDigits : Nat → Nat → List Char
  | 0, _ => []
  | k + 1, n => hexDigits k (n / 16) ++ [hexChar (n % 16)]

/-- A command word as it is written: nine hexadecimal digits, the first of which is `op` (30_encoding.md R58). -/
def wordText (cw : CommandWord) : List Char := ['0', 'x'] ++ hexDigits 9 cw.toNat

end Sys2Proof.Machine
end

