-- ==== Sys2Proof/Machine/Platform.lean ====
section
/-! DEFINITION. Any number of engine instances that share nothing (60_exceptions.md R132). -/

namespace Sys2Proof.Machine

/-- The state a step answers; a step that stopped would leave the engine as it was. -/
def stepped (s : State) : State :=
  match step s with
  | .next t => t
  | .fault _ => s
  | .refused _ => s

/-- One step of the `k`-th engine of a platform (60_exceptions.md R132). Which engine moves next is the caller's choice
(log entry 15). -/
def stepEngine (k : Nat) (engines : List State) : List State := engines.modify k stepped

end Sys2Proof.Machine
end

