-- ==== Sys2Proof/Machine/Port.lean ====
section
/-! DEFINITION. The pins: which clock edges are input events (20_memory.md R31, R32, 70_reset_and_hazards.md R140).
The engine itself works on events (20_memory.md R32); this file only says which edges make one. -/

namespace Sys2Proof.Machine

/-- The engine's inputs, and `cmd_ready`, sampled at one rising edge of `clk` (20_memory.md R31). How long the engine
keeps `cmd_ready` low is open (00_scope.md R6, `T_ACCEPT`), so it is given here with the host's own signals
(log entry 7). -/
structure PortEdge where
  rst : Bool
  cmdValid : Bool
  cmdReady : Bool
  cmd : CommandWord
  deriving DecidableEq, Repr

/-- The event an edge makes: `rst` overrides acceptance (70_reset_and_hazards.md R140); a word is accepted where
`rst = 0`, `cmd_valid = 1`, `cmd_ready = 1` (20_memory.md R32). -/
def edgeEvent (e : PortEdge) : Option InputEvent :=
  if e.rst then some .reset else if e.cmdValid && e.cmdReady then some (.word e.cmd) else none

/-- The input stream a sequence of edges gives (70_reset_and_hazards.md R155). -/
def edgeEvents (es : List PortEdge) : List InputEvent := es.filterMap edgeEvent

/-- What one edge does to an engine: the whole effect of its event, or nothing (20_memory.md R32,
70_reset_and_hazards.md R154). -/
def clockEdge (e : PortEdge) (s : State) : Host.Outcome State Fault Refusal :=
  match edgeEvent e with
  | none => .next s
  | some ev => applyEvent ev s

/-- A sequence of edges, one after the other. -/
def clockRun : List PortEdge → State → Host.Outcome State Fault Refusal
  | [], s => .next s
  | e :: es, s =>
    match clockEdge e s with
    | .next t => clockRun es t
    | .fault r => .fault r
    | .refused r => .refused r

/-- The host's duty between two edges: a presented word that was not accepted stays presented, unchanged, unless `rst`
is raised (20_memory.md R32). -/
def holdsWord (e e' : PortEdge) : Bool :=
  if e.cmdValid && !e.cmdReady && !e.rst then e'.rst || (e'.cmdValid && decide (e'.cmd = e.cmd)) else true

/-- The host keeps the duty at every pair of neighbouring edges. -/
def hostHolds : List PortEdge → Bool
  | e :: e' :: es => holdsWord e e' && hostHolds (e' :: es)
  | _ => true

end Sys2Proof.Machine
end

