-- ==== Sys2Proof/Safety.lean ====
section
/-! DEFINITION. The terms claims are stated in: how a run has ended (70_reset_and_hazards.md R155), the invariant of
the engine (10_state.md R24, 44_arithmetic_laws.md R100), what a host can tell apart (10_state.md R23,
41_accumulate.md R78). -/

namespace Sys2Proof

open Machine

/-- The run has ended well: the input is exhausted, `IDLE`, `err = 0` (70_reset_and_hazards.md R155). -/
abbrev EndedWell (s : State) : Prop := s.input = [] ∧ s.phase = .idle ∧ s.err = false

/-- A call is open at the end of the run (70_reset_and_hazards.md R155). -/
abbrev Unfinished (s : State) : Prop := s.input = [] ∧ s.phase = .active

/-- The run has gone wrong (70_reset_and_hazards.md R155). -/
abbrev GoneWrong (s : State) : Prop := s.phase = .fault

/-- Both halves of a result are residues modulo 65521 (44_arithmetic_laws.md R106). -/
abbrev ResultRange (v : Word) : Prop := (loOf v).toNat ≤ 65520 ∧ (hiOf v).toNat ≤ 65520

/-- `err` is 1 exactly in `FAULT`, and `err_code` is 0 exactly when `err` is (10_state.md R24 item 2). -/
abbrev FaultFlags (s : State) : Prop :=
  (s.err = true ↔ s.phase = .fault) ∧ (s.errCode = 0#2 ↔ s.err = false)

/-- The bounds of 44_arithmetic_laws.md R100 for accumulators after `n` bytes of a block. -/
abbrev WithinBounds (a b n : Nat) : Prop :=
  a ≤ 65760 + 255 * n ∧ b ≤ 556275 + 65760 * n + 255 * n * (n + 1) / 2

/-- While a call is open: `cnt` is in `0 .. 3849`, `done = 0`, the accumulators keep their bounds
(10_state.md R24 item 3). -/
abbrev OpenCallBounds (s : State) : Prop :=
  s.phase = .active → s.cnt.toNat ≤ 3849 ∧ s.done = false ∧ WithinBounds s.a.toNat s.b.toNat s.cnt.toNat

/-- `done = 1` means: `sum` is a result, the last one emitted, and no call is open (10_state.md R24 item 4,
20_memory.md R36). -/
abbrev DoneMeansResult (s : State) : Prop :=
  s.done = true → ResultRange s.sum ∧ s.phase ≠ .active ∧ s.history.getLast? = some s.sum

/-- Between calls after a finished one, the accumulators hold the halves of `sum` and `cnt` is 0 (10_state.md R24
item 5). -/
abbrev IdleAfterFinish (s : State) : Prop :=
  s.phase = .idle → s.done = true →
    s.cnt = 0#12 ∧ s.a.toNat = (loOf s.sum).toNat ∧ s.b.toNat = (hiOf s.sum).toNat

/-- The invariant: 10_state.md R24 with the bounds of R100, and R106 for every result emitted. -/
abbrev Inv (s : State) : Prop :=
  FaultFlags s ∧ OpenCallBounds s ∧ DoneMeansResult s ∧ IdleAfterFinish s ∧ ∀ v ∈ s.history, ResultRange v

/-- Neither addition of `DATA x` reaches `2^32` from here (44_arithmetic_laws.md R95, R100). -/
abbrev NoWrap (x : Byte) (s : State) : Prop :=
  s.a.toNat + x.toNat < 2 ^ 32 ∧ s.b.toNat + (s.a.toNat + x.toNat) < 2 ^ 32

/-- All a host has seen or can see: the outputs (`sum` only while `done = 1`), the results emitted, and what it has
still to present (10_state.md R23, 20_memory.md R33, R36). -/
abbrev SameToHost (s t : State) : Prop :=
  s.phase = t.phase ∧ s.done = t.done ∧ s.err = t.err ∧ s.errCode = t.errCode ∧ resultOf s = resultOf t ∧
    s.history = t.history ∧ s.input = t.input ∧ s.legacySeed = t.legacySeed

/-- Two engines that differ at most in what no output shows: outside an open call in `a`, `b`, `cnt`; while `done = 0`
in `sum`; in the free values a reset leaves (10_state.md R23, R26). -/
abbrev Indistinguishable (s t : State) : Prop :=
  SameToHost s t ∧ (s.phase = .active → s.a = t.a ∧ s.b = t.b ∧ s.cnt = t.cnt)

/-- Two engines that differ at most in how often they have reduced: the accumulators of an open call agree modulo
65521, `cnt` need not (41_accumulate.md R78, 44_arithmetic_laws.md R104). -/
abbrev SameResidues (s t : State) : Prop :=
  SameToHost s t ∧
    (s.phase = .active → s.a.toNat % 65521 = t.a.toNat % 65521 ∧ s.b.toNat % 65521 = t.b.toNat % 65521)

/-- `t` is the state `u` in every field a claim may read: `sum` is compared only while `done = 1`, because while
`done = 0` its value is unspecified (10_state.md R18, 93_implementation_defined.md U3; log entry 13). -/
abbrev SameReadable (t u : State) : Prop := t = { u with sum := t.sum } ∧ (u.done = true → t.sum = u.sum)

/-- The state after a fault with code `c`: three registers written, nothing else (60_exceptions.md R120). -/
abbrev Faulted (c : BitVec 2) (s : State) : State := { s with phase := .fault, err := true, errCode := c }

/-- The next input event is the word `cw`, and `rest` stands behind it. -/
abbrev NextWord (cw : CommandWord) (rest : List InputEvent) (s : State) : Prop := s.input = .word cw :: rest

/-- The event is an opening command that executes: `START` or `RESUME` in `IDLE` (60_exceptions.md R122). -/
abbrev OpensCall (ev : InputEvent) (s : State) : Prop :=
  s.phase = .idle ∧ (ev = .word (encode .start) ∨ ∃ hi lo, ev = .word (encode (.resume hi lo)))

/-- The event is a `FINISH` that executes: in `ACTIVE` (60_exceptions.md R122). -/
abbrev ClosesCall (ev : InputEvent) (s : State) : Prop := s.phase = .active ∧ ev = .word (encode .finish)

/-- An engine in `IDLE` before which the words of `c`, then `rest`, stand. -/
abbrev BeforeCall (c : Call) (rest : List InputEvent) (s : State) : Prop :=
  s.phase = .idle ∧ s.input = (callWords c).map InputEvent.word ++ rest

/-- A run of `n` steps of the machine that answers `t` (20_memory.md R40). -/
abbrev RunsTo (n : Nat) (s t : State) : Prop := core.run n s = .next t

end Sys2Proof
end

