-- ==== Sys2Proof/Certificates/Slice0/Obligations.lean ====
section
/-! DEFINITION. The statements: what the numbered rules of spec/ say the engine does, over every state. No statement
reads `sum` while `done = 0` (10_state.md R18): next states are given up to `SameReadable`. -/

open Sys2Proof Sys2Proof.Machine

/-! ## The command word -/

/-- 30_encoding.md R51, R52, R54: no bit of an encoding is dropped. -/
def Obligations.DecodeOfEncode : Prop := ∀ i : Instr, decode (encode i) = .command i

/-- 30_encoding.md R51, R52, R54: a word that decodes to a command is the word of that command, so no two words have
one meaning and no operand bit is ignored. -/
def Obligations.EncodeOfDecode : Prop := ∀ (cw : CommandWord) (i : Instr), decode cw = .command i → encode i = cw

/-- 30_encoding.md R54: the decoder's four lines over the numbers `op` and `arg` of the word; and in `FAULT` no decode
fault is taken. -/
def Obligations.DecodeByFieldValues : Prop :=
  (∀ (op arg : Nat), op < 4 → arg < 2 ^ 32 →
    decode (BitVec.ofNat 34 (2 ^ 32 * op + arg)) =
      if op = 0 then (if arg = 0 then .command .start else .fault .illegalArg)
      else if op = 1 then .command (.resume (BitVec.ofNat 16 (arg / 2 ^ 16)) (BitVec.ofNat 16 (arg % 2 ^ 16)))
      else if op = 2 then (if arg / 2 ^ 8 = 0 then .command (.data (BitVec.ofNat 8 arg)) else .fault .badByte)
      else (if arg = 0 then .command .finish else .fault .illegalArg)) ∧
  ∀ (cw : CommandWord) (s : State), s.phase = .fault → ∃ t, acceptWord cw s = .next t ∧ SameReadable t s

/-- 30_encoding.md R52: a word is a command exactly when it matches that command's row of the match and mask table. -/
def Obligations.CommandsAreTheirPatterns : Prop :=
  ∀ (cw : CommandWord) (m : String),
    (∃ r ∈ patternTable, r.mnemonic = m ∧ cw &&& r.mask = r.pattern) ↔
      ∃ i, decode cw = .command i ∧ mnemonicOf i = m

/-- Words of 95_test_vectors.md V1 to V13, each of one format. -/
def Obligations.SpecWordsDecode : Prop :=
  decode 0x000000000#34 = .command .start ∧
  decode 0x111E60398#34 = .command (.resume 0x11E6#16 0x0398#16) ∧
  decode 0x2000000FF#34 = .command (.data 0xFF#8) ∧
  decode 0x300000000#34 = .command .finish ∧
  decode 0x000000001#34 = .fault .illegalArg ∧
  decode 0x280000041#34 = .fault .badByte ∧
  decode 0x300000001#34 = .fault .illegalArg

/-! ## The four commands: each completes, with its frame -/

/-- 40_session_control.md R65: `START` in `IDLE` writes five registers and nothing else (`sum`: 10_state.md R18, log
entry 13). -/
def Obligations.StartCompletes : Prop :=
  ∀ s : State, s.phase = .idle →
    ∃ t, exec .start s = .next t ∧
      SameReadable t { s with a := 1#32, b := 0#32, cnt := 0#12, done := false, phase := .active }

/-- 40_session_control.md R67, R69: `RESUME` in `IDLE` writes five registers and nothing else; the halves are
zero-extended as they are, and the strap replaces the high one by 0 (`sum`: 10_state.md R18, log entry 13). -/
def Obligations.ResumeCompletes : Prop :=
  ∀ (s : State) (hi lo : Half), s.phase = .idle →
    ∃ t, exec (.resume hi lo) s = .next t ∧
      SameReadable t
        { s with
          a := BitVec.ofNat 32 lo.toNat, b := if s.legacySeed then 0#32 else BitVec.ofNat 32 hi.toNat
          cnt := 0#12, done := false, phase := .active }

/-- 41_accumulate.md R75, R76: `DATA` in `ACTIVE`, over every state: `a`, `b`, `cnt` are written and nothing else. The
remainders by `2^32` and `2^12` are the model's choice for states no run reaches (00_scope.md R8, log entry 5); R75's
exact sums are `DataWordOutcomes`. For `sum`: 10_state.md R18, log entry 13. -/
def Obligations.DataCompletes : Prop :=
  ∀ (s : State) (x : Byte), s.phase = .active →
    ∃ t, exec (.data x) s = .next t ∧
      SameReadable t { s with a := t.a, b := t.b, cnt := t.cnt } ∧
      (if s.cnt.toNat + 1 = 3850 then
        t.a.toNat = redNat ((s.a.toNat + x.toNat) % 2 ^ 32) ∧
        t.b.toNat = redNat ((s.b.toNat + (s.a.toNat + x.toNat)) % 2 ^ 32) ∧ t.cnt.toNat = 0
      else
        t.a.toNat = (s.a.toNat + x.toNat) % 2 ^ 32 ∧
        t.b.toNat = (s.b.toNat + (s.a.toNat + x.toNat)) % 2 ^ 32 ∧ t.cnt.toNat = (s.cnt.toNat + 1) % 2 ^ 12)

/-- 42_finalize.md R85, R87: `FINISH` in `ACTIVE`: the partial block is shift-reduced when `cnt > 0`, both accumulators
are taken modulo 65521, packed and published; `err`, `err_code` and everything else stay. -/
def Obligations.FinishCompletes : Prop :=
  ∀ s : State, s.phase = .active →
    ∃ t, exec .finish s = .next t ∧
      t = { s with a := t.a, b := t.b, cnt := 0#12, sum := t.sum, done := true, phase := .idle,
                   history := s.history ++ [t.sum] } ∧
      t.a.toNat = (if 0 < s.cnt.toNat then redNat s.a.toNat else s.a.toNat) % 65521 ∧
      t.b.toNat = (if 0 < s.cnt.toNat then redNat s.b.toNat else s.b.toNat) % 65521 ∧
      t.sum.toNat = 65536 * t.b.toNat + t.a.toNat

/-! ## The four commands as words: every outcome, in every phase, for every operand field -/

/-- 40_session_control.md R65: a `START` word with any `arg`, in any phase (`sum`: 10_state.md R18, log entry 13). -/
def Obligations.StartWordOutcomes : Prop :=
  ∀ (s : State) (arg : Word),
    ∃ t, acceptWord (0b00#2 ++ arg) s = .next t ∧ SameReadable t
      (if s.phase = .fault then s
      else if arg ≠ 0#32 then Faulted 1#2 s
      else if s.phase = .active then Faulted 3#2 s
      else { s with a := 1#32, b := 0#32, cnt := 0#12, done := false, phase := .active })

/-- 40_session_control.md R67, with R69's strap: a `RESUME` word with any `arg`, in any phase (`sum`: 10_state.md R18,
log entry 13). -/
def Obligations.ResumeWordOutcomes : Prop :=
  ∀ (s : State) (arg : Word),
    ∃ t, acceptWord (0b01#2 ++ arg) s = .next t ∧ SameReadable t
      (if s.phase = .fault then s
      else if s.phase = .active then Faulted 3#2 s
      else
        { s with
          a := arg &&& 0xFFFF#32
          b := if s.legacySeed then arg &&& (0xFFFF#32 >>> 16) else (arg >>> 16) &&& 0xFFFF#32
          cnt := 0#12, done := false, phase := .active })

/-- 41_accumulate.md R75, in every state that keeps the invariant: a `DATA` word with any `arg`, in any phase; the
sums are exact (register `sum`: 10_state.md R18, log entry 13). -/
def Obligations.DataWordOutcomes : Prop :=
  ∀ (s : State) (arg : Word), Inv s →
    ∃ t, acceptWord (0b10#2 ++ arg) s = .next t ∧
      (s.phase = .fault → SameReadable t s) ∧
      (s.phase ≠ .fault → 0xFF < arg.toNat → SameReadable t (Faulted 2#2 s)) ∧
      (s.phase = .idle → arg.toNat ≤ 0xFF → SameReadable t (Faulted 3#2 s)) ∧
      (s.phase = .active → arg.toNat ≤ 0xFF →
        SameReadable t { s with a := t.a, b := t.b, cnt := t.cnt } ∧
        if s.cnt.toNat + 1 = 3850 then
          t.a.toNat = redNat (s.a.toNat + arg.toNat) ∧
          t.b.toNat = redNat (s.b.toNat + (s.a.toNat + arg.toNat)) ∧ t.cnt.toNat = 0
        else
          t.a.toNat = s.a.toNat + arg.toNat ∧
          t.b.toNat = s.b.toNat + (s.a.toNat + arg.toNat) ∧ t.cnt.toNat = s.cnt.toNat + 1)

/-- 42_finalize.md R85: a `FINISH` word with any `arg`, in any phase (`sum` on a fault: 10_state.md R18, log
entry 13). -/
def Obligations.FinishWordOutcomes : Prop :=
  ∀ (s : State) (arg : Word),
    ∃ t, acceptWord (0b11#2 ++ arg) s = .next t ∧
      (s.phase = .fault → SameReadable t s) ∧
      (s.phase ≠ .fault → arg ≠ 0#32 → SameReadable t (Faulted 1#2 s)) ∧
      (s.phase = .idle → arg = 0#32 → SameReadable t (Faulted 3#2 s)) ∧
      (s.phase = .active → arg = 0#32 →
        t = { s with a := t.a, b := t.b, cnt := 0#12, sum := (t.b <<< 16) ||| t.a, done := true, phase := .idle,
                     history := s.history ++ [(t.b <<< 16) ||| t.a] } ∧
        t.a.toNat = (if 0 < s.cnt.toNat then redNat s.a.toNat else s.a.toNat) % 65521 ∧
        t.b.toNat = (if 0 < s.cnt.toNat then redNat s.b.toNat else s.b.toNat) % 65521)

/-! ## Faults -/

/-- 60_exceptions.md R118: the pairs of phase and command that are not permitted take `SEQ_ERR`, the permitted ones take
no fault. -/
def Obligations.CommandOutOfPhaseTakesSeqErr : Prop :=
  ∀ s : State,
    (s.phase = .active → ∃ t, exec .start s = .next t ∧ SameReadable t (Faulted 3#2 s)) ∧
    (∀ hi lo, s.phase = .active → ∃ t, exec (.resume hi lo) s = .next t ∧ SameReadable t (Faulted 3#2 s)) ∧
    (∀ x, s.phase = .idle → ∃ t, exec (.data x) s = .next t ∧ SameReadable t (Faulted 3#2 s)) ∧
    (s.phase = .idle → ∃ t, exec .finish s = .next t ∧ SameReadable t (Faulted 3#2 s)) ∧
    (∀ i, (s.phase = .idle ∧ (i = .start ∨ ∃ hi lo, i = .resume hi lo)) ∨
        (s.phase = .active ∧ ((∃ x, i = .data x) ∨ i = .finish)) →
      ∃ t, exec i s = .next t ∧ t.phase ≠ .fault ∧ t.err = s.err ∧ t.errCode = s.errCode)

/-- 60_exceptions.md R116, R117, R119: outside `FAULT` a word that does not decode takes its own fault in either phase,
`ILLEGAL_ARG` or `BAD_BYTE`, never `SEQ_ERR`. -/
def Obligations.UndecodableWordTakesItsFault : Prop :=
  ∀ (s : State) (cw : CommandWord) (rest : List InputEvent) (f : DecodeFault),
    s.phase ≠ .fault → NextWord cw rest s → decode cw = .fault f →
      ∃ t, step s = .next t ∧
        SameReadable t (Faulted (match f with | .illegalArg => 1#2 | .badByte => 2#2) { s with input := rest })

/-- 60_exceptions.md R120: however a step comes into `FAULT`, it writes `phase`, `err`, `err_code` and nothing else,
with a nonzero code, and a word caused it; a result shown before stays shown (`sum` otherwise: 10_state.md R18, log
entry 13). -/
def Obligations.FaultEntryWritesThreeRegisters : Prop :=
  ∀ s t : State, step s = .next t → s.phase ≠ .fault → t.phase = .fault →
    ∃ cw rest, NextWord cw rest s ∧ SameReadable t (Faulted t.errCode { s with input := rest }) ∧
      t.errCode ≠ 0#2

/-- 60_exceptions.md R121: in `FAULT` every command and every word, legal or not, is discarded, and only a reset leaves
it. -/
def Obligations.FaultPhaseDiscards : Prop :=
  ∀ s : State, s.phase = .fault →
    (∀ i, ∃ t, exec i s = .next t ∧ SameReadable t s) ∧
    (∀ cw rest, NextWord cw rest s → ∃ t, step s = .next t ∧ SameReadable t { s with input := rest }) ∧
    ∀ t, step s = .next t → t.phase ≠ .fault → ∃ rest, s.input = .reset :: rest

/-- 10_state.md R20, 70_reset_and_hazards.md R140: only a reset clears `err`, and only a reset clears `err_code`. -/
def Obligations.OnlyResetClearsTheError : Prop :=
  ∀ s t : State, step s = .next t →
    (s.err = true ∧ t.err = false) ∨ (s.errCode ≠ 0#2 ∧ t.errCode = 0#2) → ∃ rest, s.input = .reset :: rest

/-- 10_state.md R21: the first cause is kept until a reset. -/
def Obligations.FirstCauseIsKept : Prop :=
  ∀ s t : State, FaultFlags s → s.err = true → step s = .next t → (∀ rest, s.input ≠ .reset :: rest) →
    t.errCode = s.errCode ∧ t.err = true

/-! ## The step, the input stream, reset -/

/-- A step runs the decoded command: 60_exceptions.md R122. The word is taken off the input stream first. -/
def Obligations.StepRunsTheDecodedCommand : Prop :=
  ∀ (s : State) (cw : CommandWord) (rest : List InputEvent) (i : Instr),
    NextWord cw rest s → decode cw = .command i → i.wf = true → step s = exec i { s with input := rest }

/-- 70_reset_and_hazards.md R154, 60_exceptions.md R133: while the host presents nothing, all state is kept. -/
def Obligations.WithoutInputStateIsKept : Prop :=
  ∀ s : State, s.input = [] → ∃ t, step s = .next t ∧ SameReadable t s

/-- 20_memory.md R46, R47: the engine is never stuck: every step answers a next state and takes one event off the
stream, if there is one. -/
def Obligations.EngineIsNeverStuck : Prop := ∀ s : State, ∃ t, step s = .next t ∧ t.input = s.input.tail

/-- 20_memory.md R40: the state after a sequence of events is the left fold of applying them in order. -/
def Obligations.RunIsTheLeftFold : Prop :=
  ∀ (evs rest : List InputEvent) (s : State), s.input = evs ++ rest →
    core.run evs.length s = runEvents evs { s with input := rest }

/-- 10_state.md R26, 70_reset_and_hazards.md R140: a reset event from any state. `a`, `b`, `cnt`, `sum` are left open
(R26: unspecified); history and strap stay (20_memory.md R36). -/
def Obligations.ResetEventResets : Prop :=
  ∀ (s : State) (rest : List InputEvent), s.input = .reset :: rest →
    ∃ t, step s = .next t ∧ t.phase = .idle ∧ t.done = false ∧ t.err = false ∧ t.errCode = 0#2 ∧
      activeOut t = false ∧ t.history = s.history ∧ t.legacySeed = s.legacySeed ∧ t.input = rest

/-- 10_state.md R26, 00_scope.md R5: what the spec gives of the state right after reset. -/
def Obligations.ResetStateIsAsSpecified : Prop :=
  State.reset.phase = .idle ∧ State.reset.done = false ∧ State.reset.err = false ∧ State.reset.errCode = 0#2 ∧
    activeOut State.reset = false ∧ State.reset.history = [] ∧ State.reset.legacySeed = false

/-- 70_reset_and_hazards.md R140, 60_exceptions.md R119: a reset wins over a word presented at the same edge, whatever
the word; 20_memory.md R32, 70_reset_and_hazards.md R154: an edge that accepts nothing changes nothing. -/
def Obligations.ResetWinsAtTheEdge : Prop :=
  ∀ (e : PortEdge) (s : State),
    (e.rst = true → clockEdge e s = applyEvent .reset s) ∧
    (e.rst = false → e.cmdValid = true → e.cmdReady = true → clockEdge e s = acceptWord e.cmd s) ∧
    (e.rst = false → e.cmdValid = false ∨ e.cmdReady = false → ∃ t, clockEdge e s = .next t ∧ SameReadable t s)

/-- 20_memory.md R32, 70_reset_and_hazards.md R155: a run at the pins is the run over the events its edges make. -/
def Obligations.PinsRunTheirEvents : Prop :=
  ∀ (es : List PortEdge) (rest : List InputEvent) (s : State), s.input = edgeEvents es ++ rest →
    core.run (edgeEvents es).length s = clockRun es { s with input := rest }

/-! ## Invariants and whole-machine rules -/

/-- 10_state.md R24 at reset. -/
def Obligations.InvariantAtReset : Prop := Inv State.reset

/-- 10_state.md R24, 44_arithmetic_laws.md R100, R106: every step keeps the invariant, whatever the host sends. -/
def Obligations.StepKeepsInvariant : Prop := ∀ s t : State, Inv s → step s = .next t → Inv t

/-- 70_reset_and_hazards.md R140, R141: a reset event brings every state, also one no rule applies to (before the first
reset), into the invariant, if its record of results is one. -/
def Obligations.ResetEstablishesInvariant : Prop :=
  ∀ (s t : State) (rest : List InputEvent), s.input = .reset :: rest → (∀ v ∈ s.history, ResultRange v) →
    step s = .next t → Inv t

/-- 44_arithmetic_laws.md R100: no addition of a `DATA` wraps, with the rule's two numbers. -/
def Obligations.NoAccumulatorWraps : Prop :=
  ∀ (s : State) (x : Byte), Inv s → s.phase = .active →
    NoWrap x s ∧ s.a.toNat + x.toNat ≤ 1047510 ∧ s.b.toNat + (s.a.toNat + x.toNat) ≤ 2144091900

/-- 20_memory.md R36, 42_finalize.md R85: the output history grows by the `sum` of a `FINISH` in `ACTIVE` and by nothing
else, nothing is ever removed from it, and it is empty at the start of a run. -/
def Obligations.OnlyFinishEmits : Prop :=
  State.reset.history = [] ∧
  ∀ s t : State, step s = .next t →
    if s.phase = .active ∧ s.input.head? = some (.word (encode .finish)) then t.history = s.history ++ [t.sum]
    else t.history = s.history

/-- 10_state.md R18: of `sum` as far as a claim may read it: an executed `FINISH` makes it a result, the two residues;
after every other step, resets and faults included, a result that is shown was shown before, with the same value. -/
def Obligations.OnlyFinishWritesSum : Prop :=
  ∀ s t : State, step s = .next t →
    if s.phase = .active ∧ s.input.head? = some (.word (encode .finish)) then
      t.done = true ∧ (hiOf t.sum).toNat = s.b.toNat % 65521 ∧ (loOf t.sum).toNat = s.a.toNat % 65521
    else t.done = true → s.done = true ∧ t.sum = s.sum

/-- 10_state.md R19: who writes `done`. -/
def Obligations.WhoWritesDone : Prop :=
  ∀ (s t : State) (ev : InputEvent) (rest : List InputEvent), s.input = ev :: rest → step s = .next t →
    (ev = .reset → t.done = false) ∧
    (OpensCall ev s → t.done = false) ∧
    (ClosesCall ev s → t.done = true) ∧
    (ev ≠ .reset → ¬ OpensCall ev s → ¬ ClosesCall ev s → t.done = s.done)

/-- 00_scope.md R5: nothing the host does changes the strap. -/
def Obligations.StrapNeverChanges : Prop := ∀ s t : State, step s = .next t → t.legacySeed = s.legacySeed

/-- 10_state.md R22: the host reads the phase off (`active`, `err`), and (1, 1) never occurs. -/
def Obligations.OutputsShowThePhase : Prop :=
  ∀ s : State, Inv s →
    ((outputsOf s).active = true ↔ s.phase = .active) ∧
    phaseSeen (outputsOf s).active (outputsOf s).err = some s.phase

/-- 10_state.md R23, R26, 20_memory.md R47: no step lets a host tell apart engines that differ only in what no output
shows (the hidden registers outside a call, `sum` while `done = 0`, the free values of a reset). -/
def Obligations.HiddenRegistersStayHidden : Prop :=
  ∀ s t s' t' : State, Indistinguishable s t → step s = .next s' → step t = .next t' → Indistinguishable s' t'

/-- 41_accumulate.md R78, 44_arithmetic_laws.md R104: an engine that has reduced at other points (other `cnt`, other
representatives of the residues) shows a host the same, step for step. -/
def Obligations.ReductionScheduleIsInvisible : Prop :=
  ∀ s t s' t' : State, Inv s → Inv t → SameResidues s t → step s = .next s' → step t = .next t' → SameResidues s' t'

/-- 60_exceptions.md R132: a step of one engine changes no other. -/
def Obligations.InstancesShareNothing : Prop :=
  ∀ (engines : List State) (j k : Nat), j ≠ k → (stepEngine k engines)[j]? = engines[j]?

/-! ## Arithmetic -/

/-- 44_arithmetic_laws.md R96: the value of `red` for every 32-bit `v`, and its bound. -/
def Obligations.RedNeverWraps : Prop :=
  ∀ v : Word, (red v).toNat = 15 * (v.toNat / 65536) + v.toNat % 65536 ∧ (red v).toNat ≤ 1048560

/-- 44_arithmetic_laws.md R97: residue kept; never larger, equal exactly below 65536; not a full reduction; any number
of applications before a final `mod` gives one value. -/
def Obligations.RedKeepsTheResidue : Prop :=
  (∀ v : Word, (red v).toNat % 65521 = v.toNat % 65521 ∧ (red v).toNat ≤ v.toNat ∧
    (red v = v ↔ v.toNat < 65536)) ∧
  red 65535#32 = 65535#32 ∧ red 65536#32 = 15#32 ∧ red 1890363475#32 = 475751#32 ∧
  ∀ (v : Word) (n : Nat), (red^[n] v).toNat % 65521 = v.toNat % 65521

/-- 44_arithmetic_laws.md R99: packing is exact addition and unpacking is its inverse. -/
def Obligations.PackingIsExact : Prop :=
  ∀ a b : Word, a.toNat ≤ 65520 → b.toNat ≤ 65520 →
    (packHalves b a).toNat = 65536 * b.toNat + a.toNat ∧
    resumeLow (loOf (packHalves b a)) = a ∧ resumeHigh false (hiOf (packHalves b a)) = b

/-- 44_arithmetic_laws.md R106: every result emitted has both halves at most 65520. -/
def Obligations.EmittedResultsAreResidues : Prop :=
  ∀ (s t : State) (v : Word), step s = .next t → t.history = s.history ++ [v] →
    (loOf v).toNat ≤ 65520 ∧ (hiOf v).toNat ≤ 65520

/-- 40_session_control.md R68: `RESUME 0x00000001` and `START` are the same in every state, with either strap. -/
def Obligations.ResumeOneIsStart : Prop := ∀ s : State, exec (.resume 0#16 1#16) s = exec .start s

/-- 44_arithmetic_laws.md R102: the loop in unbounded arithmetic gives the closed forms, hence `Adler(r, B)`. -/
def Obligations.AdlerIsTheLoop : Prop :=
  ∀ (r : Word) (bs : List Byte),
    adlerNat r bs =
      65536 * ((adlerLoop ((loOf r).toNat, (hiOf r).toNat) bs).2 % 65521) +
        (adlerLoop ((loOf r).toNat, (hiOf r).toNat) bs).1 % 65521

/-- 44_arithmetic_laws.md R103: an unreduced resume half acts as its residue. -/
def Obligations.ResumeHalvesActAsResidues : Prop :=
  ∀ (r r' : Word) (bs : List Byte),
    (loOf r').toNat = (loOf r).toNat % 65521 → (hiOf r').toNat = (hiOf r).toNat % 65521 → adler r bs = adler r' bs

/-- 44_arithmetic_laws.md R105: the reference value of a concatenation, from the reference value of its first part. -/
def Obligations.AdlerOfConcatenation : Prop :=
  ∀ (r : Word) (b1 b2 : List Byte), adler (adler r b1) b2 = adler r (b1 ++ b2)

/-! ## Whole calls -/

/-- 44_arithmetic_laws.md R101, 41_accumulate.md R77: in a call, after its opening command and `n` bytes, the
accumulators are congruent to the seeds plus the running sums, and `cnt` is `n mod 3850`. -/
def Obligations.OpenCallIsCongruent : Prop :=
  ∀ (s : State) (c : Call) (rest : List InputEvent), s.phase = .idle →
    s.input = (unfinishedWords c).map InputEvent.word ++ rest →
      ∃ t, RunsTo (c.bytes.length + 1) s t ∧
        SameReadable t
          { s with a := t.a, b := t.b, cnt := t.cnt, done := false, phase := .active, input := rest } ∧
        t.a.toNat % 65521 = ((loOf (callSeed c)).toNat + byteSum c.bytes) % 65521 ∧
        t.b.toNat % 65521 =
          ((if s.legacySeed then 0 else (hiOf (callSeed c)).toNat) +
            c.bytes.length * (loOf (callSeed c)).toNat + weightedSum c.bytes) % 65521 ∧
        t.cnt.toNat = c.bytes.length % 3850

/-- 44_arithmetic_laws.md R103: a call from any `IDLE` state computes `Adler(r, B)`, publishes it and emits it, and
leaves everything a host sees else unchanged. -/
def Obligations.CallComputesAdler : Prop :=
  ∀ (s : State) (c : Call) (rest : List InputEvent), BeforeCall c rest s → s.legacySeed = false →
    ∃ t, RunsTo (c.bytes.length + 2) s t ∧
      t = { s with a := t.a, b := t.b, cnt := 0#12, sum := adler (callSeed c) c.bytes, done := true,
                   history := s.history ++ [adler (callSeed c) c.bytes], input := rest }

/-- 44_arithmetic_laws.md R108, 40_session_control.md R69: with `LEGACY_SEED = true` the high half of the resume value
is ignored; `START` calls are unaffected. -/
def Obligations.LegacyCallIgnoresHighHalf : Prop :=
  ∀ (s : State) (c : Call) (rest : List InputEvent), BeforeCall c rest s → s.legacySeed = true →
    ∃ t, RunsTo (c.bytes.length + 2) s t ∧ t.sum = adler (callSeed c &&& 0x0000FFFF#32) c.bytes ∧
      t.history = s.history ++ [t.sum] ∧ t.done = true ∧ t.phase = .idle ∧ t.input = rest ∧
      (loOf t.sum).toNat = adlerLow (callSeed c) c.bytes ∧
      ((hiOf t.sum).toNat + (hiOf (callSeed c)).toNat) % 65521 = adlerHigh (callSeed c) c.bytes ∧
      (c.resume = none → t.sum = adler 1#32 c.bytes)

/-- 44_arithmetic_laws.md R105, 70_reset_and_hazards.md R146, R149: with `LEGACY_SEED = false`, a call over the first
chunk and a call resumed from its `sum` over the second end with the `sum` of one call over both. -/
def Obligations.ChunkingIsTransparent : Prop :=
  ∀ (resume : Option Word) (b1 b2 : List Byte) (s1 s2 s : State) (r1 r2 r : List InputEvent) (t1 : State),
    s1.legacySeed = false → s2.legacySeed = false → s.legacySeed = false →
    BeforeCall ⟨resume, b1⟩ r1 s1 → RunsTo (b1.length + 2) s1 t1 →
    BeforeCall ⟨some t1.sum, b2⟩ r2 s2 → BeforeCall ⟨resume, b1 ++ b2⟩ r s →
      ∃ t2 t, RunsTo (b2.length + 2) s2 t2 ∧ RunsTo ((b1 ++ b2).length + 2) s t ∧
        t1.done = true ∧ t2.done = true ∧ t.done = true ∧ t2.sum = t.sum

/-- 44_arithmetic_laws.md R108: with `LEGACY_SEED = true` chaining gives the right low half always, and the right sum
exactly when the first chunk's checksum has a zero high half. -/
def Obligations.LegacyChainingFails : Prop :=
  ∀ (resume : Option Word) (b1 b2 : List Byte) (s1 s2 s : State) (r1 r2 r : List InputEvent) (t1 : State),
    s1.legacySeed = true → s2.legacySeed = true → s.legacySeed = true →
    BeforeCall ⟨resume, b1⟩ r1 s1 → RunsTo (b1.length + 2) s1 t1 →
    BeforeCall ⟨some t1.sum, b2⟩ r2 s2 → BeforeCall ⟨resume, b1 ++ b2⟩ r s →
      ∃ t2 t, RunsTo (b2.length + 2) s2 t2 ∧ RunsTo ((b1 ++ b2).length + 2) s t ∧
        t1.done = true ∧ t2.done = true ∧ t.done = true ∧
        loOf t2.sum = loOf t.sum ∧ (t2.sum = t.sum ↔ hiOf t1.sum = 0#16)

/-- 44_arithmetic_laws.md R107, 10_state.md R25: the same call gives the same result on any two `IDLE` engines with the
same strap, whatever happened before on either. -/
def Obligations.SameCallSameResult : Prop :=
  ∀ (c : Call) (s1 s2 : State) (r1 r2 : List InputEvent),
    BeforeCall c r1 s1 → BeforeCall c r2 s2 → s1.legacySeed = s2.legacySeed →
      ∃ t1 t2, RunsTo (c.bytes.length + 2) s1 t1 ∧ RunsTo (c.bytes.length + 2) s2 t2 ∧
        t1.sum = t2.sum ∧ t1.done = true ∧ t2.done = true

/-- 60_exceptions.md R124, 70_reset_and_hazards.md R155: a sequence of whole calls from `IDLE` takes no fault, emits one
result for each call, and ends in `IDLE`; if nothing else stands in the input, the run has then ended well. -/
def Obligations.WholeCallsNeverFault : Prop :=
  ∀ (calls : List Call) (s : State) (rest : List InputEvent), s.phase = .idle →
    s.input = (calls.flatMap callWords).map InputEvent.word ++ rest →
      ∃ t, RunsTo (calls.flatMap callWords).length s t ∧ t.phase = .idle ∧ t.err = s.err ∧ t.errCode = s.errCode ∧
        t.input = rest ∧ t.history.length = s.history.length + calls.length ∧ s.history <+: t.history ∧
        (rest = [] → s.err = false → EndedWell t)

/-- 30_encoding.md R61: from `IDLE`, a sequence of words takes no fault exactly when it is in the call grammar (whole
calls, optionally followed by an unfinished one). -/
def Obligations.GrammarIsFaultFree : Prop :=
  ∀ (ws : List CommandWord) (s : State), s.phase = .idle → s.input = ws.map InputEvent.word →
    ∃ t, RunsTo ws.length s t ∧ (t.phase ≠ .fault ↔ inGrammar ws)

/-! ## The assembler notation -/

/-- 30_encoding.md R58: the syntax table's words are the encodings of the commands they name, for every operand in
range, and a larger operand is rejected. -/
def Obligations.AssemblerLinesEncode : Prop :=
  assembleLine .start = some [encode .start] ∧ assembleLine .finish = some [encode .finish] ∧
  (∀ v, assembleLine (.resume v) =
    if v ≤ 0xFFFFFFFF then some [encode (.resume (BitVec.ofNat 16 (v / 65536)) (BitVec.ofNat 16 v))] else none) ∧
  (∀ x, assembleLine (.data x) = if x ≤ 0xFF then some [encode (.data (BitVec.ofNat 8 x))] else none) ∧
  ∀ w, assembleLine (.word w) = if w ≤ 0x3FFFFFFFF then some [BitVec.ofNat 34 w] else none

/-- 30_encoding.md R60: `COMPUTE` expands to the words of a whole call. -/
def Obligations.ComputeExpandsToACall : Prop :=
  ∀ (xs : List Nat) (v : Option Nat), (AsmLine.compute xs v).wf = true →
    assembleLine (.compute xs v) = some (callWords ⟨v.map (BitVec.ofNat 32), xs.map (BitVec.ofNat 8)⟩)
end

