-- ==== Sys2Proof/Laws/Arith.lean ====
section
/-! SUPPORT. The values of the arithmetic operations as natural numbers (44_arithmetic_laws.md R96 to R99). -/

namespace Sys2Proof.Machine

@[simp] theorem dataByte_toNat (x : Byte) : (dataByte x).toNat = x.toNat := by
  simp [dataByte, zext32]; omega

@[simp] theorem resumeLow_toNat (lo : Half) : (resumeLow lo).toNat = lo.toNat := by
  simp [resumeLow, zext32]; omega

@[simp] theorem resumeHigh_false_toNat (hi : Half) : (resumeHigh false hi).toNat = hi.toNat := by
  simp [resumeHigh, zext32]; omega

@[simp] theorem resumeHigh_true (hi : Half) : resumeHigh true hi = 0#32 := rfl

/-- The shift-reduction never wraps, for any 32-bit value. -/
theorem red_toNat (v : Word) : (red v).toNat = redNat v.toNat := by
  have h : v.toNat &&& 65535 = v.toNat % 65536 := Nat.and_two_pow_sub_one_eq_mod v.toNat 16
  have hv := v.isLt
  simp only [red, redNat, Config.k, BitVec.toNat_add, BitVec.toNat_mul, BitVec.toNat_ushiftRight,
    BitVec.toNat_and, BitVec.toNat_ofNat, Nat.shiftRight_eq_div_pow, Nat.reducePow, Nat.reduceMod, h]
  simp
  omega

theorem redNat_mod (v : Nat) : redNat v % 65521 = v % 65521 := by
  unfold redNat; omega

theorem redNat_small {v : Nat} (h : v < 65536) : redNat v = v := by
  unfold redNat; omega

/-- What the shift-reduction leaves of the low accumulator at the end of a block. -/
theorem redNat_low_bound {v : Nat} (h : v ≤ 1047510) : redNat v ≤ 65760 := by
  unfold redNat; omega

/-- What the shift-reduction leaves of the high accumulator at the end of a block. -/
theorem redNat_high_bound {v : Nat} (h : v ≤ 2144091900) : redNat v ≤ 556275 := by
  unfold redNat; omega

theorem modBase_toNat (v : Word) : (modBase v).toNat = v.toNat % 65521 := by
  simp [modBase, Config.base, BitVec.toNat_umod]

/-- Whether or not the last block is shift-reduced, the final value is the residue. -/
theorem finalReduce_toNat (c : Count) (v : Word) : (finalReduce c v).toNat = v.toNat % 65521 := by
  unfold finalReduce
  split
  · exact modBase_toNat v
  · rw [modBase_toNat, red_toNat, redNat_mod]

theorem finalReduce_lt (c : Count) (v : Word) : (finalReduce c v).toNat < 65521 := by
  rw [finalReduce_toNat]; exact Nat.mod_lt _ (by decide)

theorem loOf_toNat (v : Word) : (loOf v).toNat = v.toNat % 65536 := by
  simp [loOf, BitVec.extractLsb'_toNat]

theorem hiOf_toNat (v : Word) : (hiOf v).toNat = v.toNat / 65536 := by
  have := v.isLt
  simp only [hiOf, BitVec.extractLsb'_toNat, Nat.shiftRight_eq_div_pow, Nat.reducePow]
  omega

/-- A 32-bit value is made of its halves. -/
theorem toNat_eq_halves (v : Word) : v.toNat = 65536 * (hiOf v).toNat + (loOf v).toNat := by
  rw [loOf_toNat, hiOf_toNat]; omega

/-- The OR of the packing is exact addition. -/
theorem packHalves_toNat {b a : Word} (hb : b.toNat < 65536) (ha : a.toNat < 65536) :
    (packHalves b a).toNat = 65536 * b.toNat + a.toNat := by
  have hs : b.toNat <<< 16 < 2 ^ 32 := by rw [Nat.shiftLeft_eq]; omega
  simp only [packHalves, BitVec.toNat_or, BitVec.toNat_shiftLeft]
  rw [Nat.mod_eq_of_lt hs, ← Nat.shiftLeft_add_eq_or_of_lt (by omega : a.toNat < 2 ^ 16), Nat.shiftLeft_eq]
  omega

theorem callResult_toNat (s : State) :
    (callResult s).toNat = 65536 * (s.b.toNat % 65521) + s.a.toNat % 65521 := by
  have ha := finalReduce_lt s.cnt s.a
  have hb := finalReduce_lt s.cnt s.b
  rw [callResult, packHalves_toNat (by omega) (by omega), finalReduce_toNat, finalReduce_toNat]

theorem callResult_lo (s : State) : (loOf (callResult s)).toNat = s.a.toNat % 65521 := by
  rw [loOf_toNat, callResult_toNat]; omega

theorem callResult_hi (s : State) : (hiOf (callResult s)).toNat = s.b.toNat % 65521 := by
  rw [hiOf_toNat, callResult_toNat]; omega

end Sys2Proof.Machine
end

