-- ==== Sys2Proof/Laws/State.lean ====
section
/-! SUPPORT. What each update of State leaves in each field: one lemma per field per update. -/

namespace Sys2Proof.Machine

variable (s : State)

@[simp] theorem clearDone_a : (clearDone s).a = s.a := rfl
@[simp] theorem clearDone_b : (clearDone s).b = s.b := rfl
@[simp] theorem clearDone_cnt : (clearDone s).cnt = s.cnt := rfl
@[simp] theorem clearDone_phase : (clearDone s).phase = s.phase := rfl
@[simp] theorem clearDone_sum : (clearDone s).sum = s.sum := rfl
@[simp] theorem clearDone_done : (clearDone s).done = false := rfl
@[simp] theorem clearDone_err : (clearDone s).err = s.err := rfl
@[simp] theorem clearDone_errCode : (clearDone s).errCode = s.errCode := rfl
@[simp] theorem clearDone_history : (clearDone s).history = s.history := rfl
@[simp] theorem clearDone_input : (clearDone s).input = s.input := rfl
@[simp] theorem clearDone_legacySeed : (clearDone s).legacySeed = s.legacySeed := rfl
@[simp] theorem clearDone_resetDraws : (clearDone s).resetDraws = s.resetDraws := rfl

@[simp] theorem setDone_a : (setDone s).a = s.a := rfl
@[simp] theorem setDone_b : (setDone s).b = s.b := rfl
@[simp] theorem setDone_cnt : (setDone s).cnt = s.cnt := rfl
@[simp] theorem setDone_phase : (setDone s).phase = s.phase := rfl
@[simp] theorem setDone_sum : (setDone s).sum = s.sum := rfl
@[simp] theorem setDone_done : (setDone s).done = true := rfl
@[simp] theorem setDone_err : (setDone s).err = s.err := rfl
@[simp] theorem setDone_errCode : (setDone s).errCode = s.errCode := rfl
@[simp] theorem setDone_history : (setDone s).history = s.history := rfl
@[simp] theorem setDone_input : (setDone s).input = s.input := rfl
@[simp] theorem setDone_legacySeed : (setDone s).legacySeed = s.legacySeed := rfl
@[simp] theorem setDone_resetDraws : (setDone s).resetDraws = s.resetDraws := rfl

@[simp] theorem recordCause_a (c : Cause) : (recordCause c s).a = s.a := rfl
@[simp] theorem recordCause_b (c : Cause) : (recordCause c s).b = s.b := rfl
@[simp] theorem recordCause_cnt (c : Cause) : (recordCause c s).cnt = s.cnt := rfl
@[simp] theorem recordCause_phase (c : Cause) : (recordCause c s).phase = s.phase := rfl
@[simp] theorem recordCause_sum (c : Cause) : (recordCause c s).sum = s.sum := rfl
@[simp] theorem recordCause_done (c : Cause) : (recordCause c s).done = s.done := rfl
@[simp] theorem recordCause_err (c : Cause) : (recordCause c s).err = true := rfl
@[simp] theorem recordCause_errCode (c : Cause) : (recordCause c s).errCode = c.code := rfl
@[simp] theorem recordCause_history (c : Cause) : (recordCause c s).history = s.history := rfl
@[simp] theorem recordCause_input (c : Cause) : (recordCause c s).input = s.input := rfl
@[simp] theorem recordCause_legacySeed (c : Cause) : (recordCause c s).legacySeed = s.legacySeed := rfl
@[simp] theorem recordCause_resetDraws (c : Cause) : (recordCause c s).resetDraws = s.resetDraws := rfl

@[simp] theorem clearFlags_a : (clearFlags s).a = s.a := rfl
@[simp] theorem clearFlags_b : (clearFlags s).b = s.b := rfl
@[simp] theorem clearFlags_cnt : (clearFlags s).cnt = s.cnt := rfl
@[simp] theorem clearFlags_phase : (clearFlags s).phase = s.phase := rfl
@[simp] theorem clearFlags_sum : (clearFlags s).sum = s.sum := rfl
@[simp] theorem clearFlags_done : (clearFlags s).done = false := rfl
@[simp] theorem clearFlags_err : (clearFlags s).err = false := rfl
@[simp] theorem clearFlags_errCode : (clearFlags s).errCode = 0#2 := rfl
@[simp] theorem clearFlags_history : (clearFlags s).history = s.history := rfl
@[simp] theorem clearFlags_input : (clearFlags s).input = s.input := rfl
@[simp] theorem clearFlags_legacySeed : (clearFlags s).legacySeed = s.legacySeed := rfl
@[simp] theorem clearFlags_resetDraws : (clearFlags s).resetDraws = s.resetDraws := rfl

@[simp] theorem openCall_a (p q : Word) : (openCall p q s).a = p := rfl
@[simp] theorem openCall_b (p q : Word) : (openCall p q s).b = q := rfl
@[simp] theorem openCall_cnt (p q : Word) : (openCall p q s).cnt = 0#12 := rfl
@[simp] theorem openCall_phase (p q : Word) : (openCall p q s).phase = .active := rfl
@[simp] theorem openCall_sum (p q : Word) : (openCall p q s).sum = s.sum := rfl
@[simp] theorem openCall_done (p q : Word) : (openCall p q s).done = false := rfl
@[simp] theorem openCall_err (p q : Word) : (openCall p q s).err = s.err := rfl
@[simp] theorem openCall_errCode (p q : Word) : (openCall p q s).errCode = s.errCode := rfl
@[simp] theorem openCall_history (p q : Word) : (openCall p q s).history = s.history := rfl
@[simp] theorem openCall_input (p q : Word) : (openCall p q s).input = s.input := rfl
@[simp] theorem openCall_legacySeed (p q : Word) : (openCall p q s).legacySeed = s.legacySeed := rfl
@[simp] theorem openCall_resetDraws (p q : Word) : (openCall p q s).resetDraws = s.resetDraws := rfl

@[simp] theorem blockReduce_a : (blockReduce s).a = red s.a := rfl
@[simp] theorem blockReduce_b : (blockReduce s).b = red s.b := rfl
@[simp] theorem blockReduce_cnt : (blockReduce s).cnt = 0#12 := rfl
@[simp] theorem blockReduce_phase : (blockReduce s).phase = s.phase := rfl
@[simp] theorem blockReduce_sum : (blockReduce s).sum = s.sum := rfl
@[simp] theorem blockReduce_done : (blockReduce s).done = s.done := rfl
@[simp] theorem blockReduce_err : (blockReduce s).err = s.err := rfl
@[simp] theorem blockReduce_errCode : (blockReduce s).errCode = s.errCode := rfl
@[simp] theorem blockReduce_history : (blockReduce s).history = s.history := rfl
@[simp] theorem blockReduce_input : (blockReduce s).input = s.input := rfl
@[simp] theorem blockReduce_legacySeed : (blockReduce s).legacySeed = s.legacySeed := rfl
@[simp] theorem blockReduce_resetDraws : (blockReduce s).resetDraws = s.resetDraws := rfl

@[simp] theorem addByte_a (x : Byte) : (addByte x s).a = s.a + dataByte x := rfl
@[simp] theorem addByte_b (x : Byte) : (addByte x s).b = s.b + (s.a + dataByte x) := rfl
@[simp] theorem addByte_cnt (x : Byte) : (addByte x s).cnt = s.cnt + 1#12 := rfl
@[simp] theorem addByte_phase (x : Byte) : (addByte x s).phase = s.phase := rfl
@[simp] theorem addByte_sum (x : Byte) : (addByte x s).sum = s.sum := rfl
@[simp] theorem addByte_done (x : Byte) : (addByte x s).done = s.done := rfl
@[simp] theorem addByte_err (x : Byte) : (addByte x s).err = s.err := rfl
@[simp] theorem addByte_errCode (x : Byte) : (addByte x s).errCode = s.errCode := rfl
@[simp] theorem addByte_history (x : Byte) : (addByte x s).history = s.history := rfl
@[simp] theorem addByte_input (x : Byte) : (addByte x s).input = s.input := rfl
@[simp] theorem addByte_legacySeed (x : Byte) : (addByte x s).legacySeed = s.legacySeed := rfl
@[simp] theorem addByte_resetDraws (x : Byte) : (addByte x s).resetDraws = s.resetDraws := rfl

@[simp] theorem emitResult_a (v : Word) : (emitResult v s).a = s.a := rfl
@[simp] theorem emitResult_b (v : Word) : (emitResult v s).b = s.b := rfl
@[simp] theorem emitResult_cnt (v : Word) : (emitResult v s).cnt = s.cnt := rfl
@[simp] theorem emitResult_phase (v : Word) : (emitResult v s).phase = s.phase := rfl
@[simp] theorem emitResult_sum (v : Word) : (emitResult v s).sum = s.sum := rfl
@[simp] theorem emitResult_done (v : Word) : (emitResult v s).done = s.done := rfl
@[simp] theorem emitResult_err (v : Word) : (emitResult v s).err = s.err := rfl
@[simp] theorem emitResult_errCode (v : Word) : (emitResult v s).errCode = s.errCode := rfl
@[simp] theorem emitResult_history (v : Word) : (emitResult v s).history = s.history ++ [v] := rfl
@[simp] theorem emitResult_input (v : Word) : (emitResult v s).input = s.input := rfl
@[simp] theorem emitResult_legacySeed (v : Word) : (emitResult v s).legacySeed = s.legacySeed := rfl
@[simp] theorem emitResult_resetDraws (v : Word) : (emitResult v s).resetDraws = s.resetDraws := rfl

@[simp] theorem closeCall_a : (closeCall s).a = finalReduce s.cnt s.a := rfl
@[simp] theorem closeCall_b : (closeCall s).b = finalReduce s.cnt s.b := rfl
@[simp] theorem closeCall_cnt : (closeCall s).cnt = 0#12 := rfl
@[simp] theorem closeCall_phase : (closeCall s).phase = .idle := rfl
@[simp] theorem closeCall_sum : (closeCall s).sum = callResult s := rfl
@[simp] theorem closeCall_done : (closeCall s).done = true := rfl
@[simp] theorem closeCall_err : (closeCall s).err = s.err := rfl
@[simp] theorem closeCall_errCode : (closeCall s).errCode = s.errCode := rfl
@[simp] theorem closeCall_history : (closeCall s).history = s.history ++ [callResult s] := rfl
@[simp] theorem closeCall_input : (closeCall s).input = s.input := rfl
@[simp] theorem closeCall_legacySeed : (closeCall s).legacySeed = s.legacySeed := rfl
@[simp] theorem closeCall_resetDraws : (closeCall s).resetDraws = s.resetDraws := rfl

@[simp] theorem takeFault_a (c : Cause) : (takeFault c s).a = s.a := rfl
@[simp] theorem takeFault_b (c : Cause) : (takeFault c s).b = s.b := rfl
@[simp] theorem takeFault_cnt (c : Cause) : (takeFault c s).cnt = s.cnt := rfl
@[simp] theorem takeFault_phase (c : Cause) : (takeFault c s).phase = .fault := rfl
@[simp] theorem takeFault_sum (c : Cause) : (takeFault c s).sum = s.sum := rfl
@[simp] theorem takeFault_done (c : Cause) : (takeFault c s).done = s.done := rfl
@[simp] theorem takeFault_err (c : Cause) : (takeFault c s).err = true := rfl
@[simp] theorem takeFault_errCode (c : Cause) : (takeFault c s).errCode = c.code := rfl
@[simp] theorem takeFault_history (c : Cause) : (takeFault c s).history = s.history := rfl
@[simp] theorem takeFault_input (c : Cause) : (takeFault c s).input = s.input := rfl
@[simp] theorem takeFault_legacySeed (c : Cause) : (takeFault c s).legacySeed = s.legacySeed := rfl
@[simp] theorem takeFault_resetDraws (c : Cause) : (takeFault c s).resetDraws = s.resetDraws := rfl

@[simp] theorem applyReset_a : (applyReset s).a = Config.resetA s.resetDraws := rfl
@[simp] theorem applyReset_b : (applyReset s).b = Config.resetB s.resetDraws := rfl
@[simp] theorem applyReset_cnt : (applyReset s).cnt = Config.resetCnt s.resetDraws := rfl
@[simp] theorem applyReset_phase : (applyReset s).phase = .idle := rfl
@[simp] theorem applyReset_sum : (applyReset s).sum = Config.resetSum s.resetDraws := rfl
@[simp] theorem applyReset_done : (applyReset s).done = false := rfl
@[simp] theorem applyReset_err : (applyReset s).err = false := rfl
@[simp] theorem applyReset_errCode : (applyReset s).errCode = 0#2 := rfl
@[simp] theorem applyReset_history : (applyReset s).history = s.history := rfl
@[simp] theorem applyReset_input : (applyReset s).input = s.input := rfl
@[simp] theorem applyReset_legacySeed : (applyReset s).legacySeed = s.legacySeed := rfl
@[simp] theorem applyReset_resetDraws : (applyReset s).resetDraws = s.resetDraws + 1 := rfl

@[simp] theorem withInput_a (evs : List InputEvent) : (withInput evs s).a = s.a := rfl
@[simp] theorem withInput_b (evs : List InputEvent) : (withInput evs s).b = s.b := rfl
@[simp] theorem withInput_cnt (evs : List InputEvent) : (withInput evs s).cnt = s.cnt := rfl
@[simp] theorem withInput_phase (evs : List InputEvent) : (withInput evs s).phase = s.phase := rfl
@[simp] theorem withInput_sum (evs : List InputEvent) : (withInput evs s).sum = s.sum := rfl
@[simp] theorem withInput_done (evs : List InputEvent) : (withInput evs s).done = s.done := rfl
@[simp] theorem withInput_err (evs : List InputEvent) : (withInput evs s).err = s.err := rfl
@[simp] theorem withInput_errCode (evs : List InputEvent) : (withInput evs s).errCode = s.errCode := rfl
@[simp] theorem withInput_history (evs : List InputEvent) : (withInput evs s).history = s.history := rfl
@[simp] theorem withInput_input (evs : List InputEvent) : (withInput evs s).input = evs := rfl
@[simp] theorem withInput_legacySeed (evs : List InputEvent) : (withInput evs s).legacySeed = s.legacySeed := rfl
@[simp] theorem withInput_resetDraws (evs : List InputEvent) : (withInput evs s).resetDraws = s.resetDraws := rfl

end Sys2Proof.Machine
end

