-- ==== Sys2Proof/Laws/Ops.lean ====
section
/-! SUPPORT. For each shared operation, one lemma that says everything it can do. -/

namespace Sys2Proof.Machine

/-- The phase check has three outcomes (60_exceptions.md R122). -/
theorem inPhase_cases (p : Phase) (f : State → State) (s : State) :
    (s.phase = .fault ∧ inPhase p f s = s) ∨
    (s.phase ≠ .fault ∧ s.phase = p ∧ inPhase p f s = f s) ∨
    (s.phase ≠ .fault ∧ s.phase ≠ p ∧ inPhase p f s = takeFault .seqErr s) := by
  unfold inPhase
  split
  · exact .inl ⟨‹_›, rfl⟩
  · split
    · exact .inr (.inl ⟨‹_›, ‹_›, rfl⟩)
    · exact .inr (.inr ⟨‹_›, ‹_›, rfl⟩)

theorem inPhase_fault {p : Phase} {f : State → State} {s : State} (h : s.phase = .fault) :
    inPhase p f s = s := by simp [inPhase, h]

theorem inPhase_permitted {p : Phase} {f : State → State} {s : State} (h : s.phase = p) (hp : p ≠ .fault) :
    inPhase p f s = f s := by simp [inPhase, h, hp]

theorem inPhase_other {p : Phase} {f : State → State} {s : State} (h : s.phase ≠ p) (hf : s.phase ≠ .fault) :
    inPhase p f s = takeFault .seqErr s := by simp [inPhase, h, hf]

/-- Absorbing a byte either ends the block or goes on in it. -/
theorem absorb_cases (x : Byte) (s : State) :
    (s.cnt + 1#12 = Config.nmax ∧ absorb x s = blockReduce (addByte x s)) ∨
    (s.cnt + 1#12 ≠ Config.nmax ∧ absorb x s = addByte x s) := by
  unfold absorb
  split
  · exact .inl ⟨‹_›, rfl⟩
  · exact .inr ⟨‹_›, rfl⟩

/-- What absorbing a byte leaves alone (41_accumulate.md R75). -/
theorem absorb_frame (x : Byte) (s : State) :
    (absorb x s).phase = s.phase ∧ (absorb x s).sum = s.sum ∧ (absorb x s).done = s.done ∧
    (absorb x s).err = s.err ∧ (absorb x s).errCode = s.errCode ∧ (absorb x s).history = s.history ∧
    (absorb x s).input = s.input ∧ (absorb x s).legacySeed = s.legacySeed ∧
    (absorb x s).resetDraws = s.resetDraws := by
  obtain ⟨-, h⟩ | ⟨-, h⟩ := absorb_cases x s <;> simp [h]

theorem count_succ_toNat {c : Count} (h : c.toNat ≤ 3849) : (c + 1#12).toNat = c.toNat + 1 := by
  rw [BitVec.toNat_add]; simp; omega

/-- The block ends at the count 3849, whatever 12-bit value `cnt` holds. -/
theorem block_ends_iff (c : Count) : c + 1#12 = Config.nmax ↔ c.toNat = 3849 := by
  have := c.isLt
  rw [← BitVec.toNat_inj, BitVec.toNat_add]
  simp [Config.nmax]
  omega

/-- The next input event is taken off the front of the stream. -/
theorem takeInput_cases (s : State) :
    (s.input = [] ∧ takeInput s = none) ∨
    ∃ ev rest, s.input = ev :: rest ∧ takeInput s = some (ev, withInput rest s) := by
  unfold takeInput
  split
  · exact .inl ⟨‹_›, rfl⟩
  · exact .inr ⟨_, _, ‹_›, rfl⟩

/-- Absorbing a byte writes `a`, `b` and `cnt` only (41_accumulate.md R75). -/
theorem absorb_eq_update (x : Byte) (s : State) :
    absorb x s = { s with a := (absorb x s).a, b := (absorb x s).b, cnt := (absorb x s).cnt } := by
  obtain ⟨-, h⟩ | ⟨-, h⟩ := absorb_cases x s <;> rw [h] <;> rfl

/-- What absorbing a byte writes, as natural numbers (41_accumulate.md R75, R76). -/
theorem absorb_values (x : Byte) (s : State) :
      (if s.cnt.toNat + 1 = 3850 then
        (absorb x s).a.toNat = redNat ((s.a.toNat + x.toNat) % 2 ^ 32) ∧
        (absorb x s).b.toNat = redNat ((s.b.toNat + (s.a.toNat + x.toNat)) % 2 ^ 32) ∧ (absorb x s).cnt.toNat = 0
      else
        (absorb x s).a.toNat = (s.a.toNat + x.toNat) % 2 ^ 32 ∧
        (absorb x s).b.toNat = (s.b.toNat + (s.a.toNat + x.toNat)) % 2 ^ 32 ∧
        (absorb x s).cnt.toNat = (s.cnt.toNat + 1) % 2 ^ 12) := by
  obtain ⟨hc, h⟩ | ⟨hc, h⟩ := absorb_cases x s <;> simp only [ne_eq, block_ends_iff] at hc
  · rw [if_pos (by omega), h]
    simp [red_toNat, BitVec.toNat_add]
  · rw [if_neg (by omega), h]
    simp [BitVec.toNat_add]

end Sys2Proof.Machine
end

