-- ==== Sys2Proof/Laws/Step.lean ====
section
/-! SUPPORT. What a command, an accepted word and a step can do, said once. -/

namespace Sys2Proof.Machine

/-- The effect of a command in the phase that permits it. -/
def effectOf : Instr → State → State
  | .start => openCall Config.initA Config.initB
  | .resume hi lo => fun s => openCall (resumeLow lo) (resumeHigh s.legacySeed hi) s
  | .data x => absorb x
  | .finish => closeCall

/-- The phase that permits a command (60_exceptions.md R118). -/
def permittedPhase : Instr → Phase
  | .start => .idle
  | .resume _ _ => .idle
  | .data _ => .active
  | .finish => .active

theorem permittedPhase_ne_fault (i : Instr) : permittedPhase i ≠ .fault := by cases i <;> simp [permittedPhase]

theorem exec_eq (i : Instr) (s : State) : exec i s = .next (inPhase (permittedPhase i) (effectOf i) s) := by
  cases i <;> rfl

/-- Everything a command can do. -/
theorem exec_cases {i : Instr} {s t : State} (h : exec i s = .next t) :
    (s.phase = .fault ∧ t = s) ∨
    (s.phase = permittedPhase i ∧ t = effectOf i s) ∨
    (s.phase ≠ .fault ∧ s.phase ≠ permittedPhase i ∧ t = takeFault .seqErr s) := by
  rw [exec_eq] at h
  injection h with h
  subst h
  obtain ⟨h1, h2⟩ | ⟨-, h1, h2⟩ | ⟨h0, h1, h2⟩ := inPhase_cases (permittedPhase i) (effectOf i) s
  · exact .inl ⟨h1, h2⟩
  · exact .inr (.inl ⟨h1, h2⟩)
  · exact .inr (.inr ⟨h0, h1, h2⟩)

theorem acceptWord_command {cw : CommandWord} {i : Instr} (hd : decode cw = .command i) (s : State) :
    acceptWord cw s = exec i s := by
  unfold acceptWord
  rw [hd]
  split
  · rw [exec_eq, inPhase_fault ‹_›]
  · rfl

theorem acceptWord_fault {cw : CommandWord} {f : DecodeFault} (hd : decode cw = .fault f) {s : State}
    (hp : s.phase ≠ .fault) : acceptWord cw s = .next (takeFault (causeOf f) s) := by
  unfold acceptWord
  rw [hd, if_neg hp]

theorem acceptWord_discard {s : State} (hp : s.phase = .fault) (cw : CommandWord) : acceptWord cw s = .next s := by
  unfold acceptWord
  rw [if_pos hp]

/-- Everything accepting a word can do (60_exceptions.md R122). -/
theorem acceptWord_cases {cw : CommandWord} {s t : State} (h : acceptWord cw s = .next t) :
    (s.phase = .fault ∧ t = s) ∨
    (s.phase ≠ .fault ∧ ∃ f, decode cw = .fault f ∧ t = takeFault (causeOf f) s) ∨
    (s.phase ≠ .fault ∧ ∃ i, decode cw = .command i ∧ exec i s = .next t) := by
  unfold acceptWord at h
  split at h
  · injection h with h
    exact .inl ⟨‹_›, h.symm⟩
  · split at h
    · injection h with h
      exact .inr (.inl ⟨‹_›, _, ‹_›, h.symm⟩)
    · exact .inr (.inr ⟨‹_›, _, ‹_›, h⟩)

/-- Everything an event can do to an engine: it is discarded, it takes a fault, a command has its effect, or it resets
the engine. -/
theorem applyEvent_cases {ev : InputEvent} {s t : State} (h : applyEvent ev s = .next t) :
    (ev = .reset ∧ t = applyReset s) ∨
    (∃ cw, ev = .word cw ∧ s.phase = .fault ∧ t = s) ∨
    (∃ cw c, ev = .word cw ∧ s.phase ≠ .fault ∧ t = takeFault c s) ∨
    (∃ cw i, ev = .word cw ∧ decode cw = .command i ∧ s.phase = permittedPhase i ∧ t = effectOf i s) := by
  cases ev with
  | reset =>
    injection h with h
    exact .inl ⟨rfl, h.symm⟩
  | word cw =>
    obtain ⟨hp, ht⟩ | ⟨hp, f, -, ht⟩ | ⟨hp, i, hd, he⟩ := acceptWord_cases h
    · exact .inr (.inl ⟨cw, rfl, hp, ht⟩)
    · exact .inr (.inr (.inl ⟨cw, _, rfl, hp, ht⟩))
    · obtain ⟨hf, -⟩ | ⟨hq, ht⟩ | ⟨-, -, ht⟩ := exec_cases he
      · exact absurd hf hp
      · exact .inr (.inr (.inr ⟨cw, i, rfl, hd, hq, ht⟩))
      · exact .inr (.inr (.inl ⟨cw, _, rfl, hp, ht⟩))

/-- A step does nothing, or applies the next event of the input stream. -/
theorem step_cases {s t : State} (h : step s = .next t) :
    (s.input = [] ∧ t = s) ∨ ∃ ev rest, s.input = ev :: rest ∧ applyEvent ev (withInput rest s) = .next t := by
  unfold step takeStep at h
  obtain ⟨hi, ht⟩ | ⟨ev, rest, hi, ht⟩ := takeInput_cases s
  · rw [ht] at h
    injection h with h
    exact .inl ⟨hi, h.symm⟩
  · rw [ht] at h
    exact .inr ⟨ev, rest, hi, h⟩

theorem step_of_input {s : State} {ev : InputEvent} {rest : List InputEvent} (h : s.input = ev :: rest) :
    step s = applyEvent ev (withInput rest s) := by
  simp [step, takeStep, takeInput, h]

theorem step_of_no_input {s : State} (h : s.input = []) : step s = .next s := by
  simp [step, takeStep, takeInput, h]

/-- The outcome of an event depends on the state only through its phase (60_exceptions.md R119, R122): two engines in
one phase are both reset, both discard, both take one cause, or both execute one command. -/
theorem applyEvent_pair {ev : InputEvent} {s t s' t' : State} (hp : s.phase = t.phase)
    (hs : applyEvent ev s = .next s') (ht : applyEvent ev t = .next t') :
    (s' = applyReset s ∧ t' = applyReset t) ∨
    (s.phase = .fault ∧ s' = s ∧ t' = t) ∨
    (∃ c, s.phase ≠ .fault ∧ s' = takeFault c s ∧ t' = takeFault c t) ∨
    (∃ i, s.phase = permittedPhase i ∧ s' = effectOf i s ∧ t' = effectOf i t) := by
  cases ev with
  | reset =>
    injection hs with hs
    injection ht with ht
    exact .inl ⟨hs.symm, ht.symm⟩
  | word cw =>
    change acceptWord cw s = _ at hs
    change acceptWord cw t = _ at ht
    by_cases hf : s.phase = .fault
    · rw [acceptWord_discard hf] at hs
      rw [acceptWord_discard (hp ▸ hf)] at ht
      injection hs with hs
      injection ht with ht
      exact .inr (.inl ⟨hf, hs.symm, ht.symm⟩)
    · have hg : t.phase ≠ .fault := hp ▸ hf
      cases hd : decode cw with
      | fault f =>
        rw [acceptWord_fault hd hf] at hs
        rw [acceptWord_fault hd hg] at ht
        injection hs with hs
        injection ht with ht
        exact .inr (.inr (.inl ⟨_, hf, hs.symm, ht.symm⟩))
      | command i =>
        rw [acceptWord_command hd, exec_eq] at hs ht
        injection hs with hs
        injection ht with ht
        by_cases hq : s.phase = permittedPhase i
        · rw [inPhase_permitted hq (permittedPhase_ne_fault i)] at hs
          rw [inPhase_permitted (hp ▸ hq) (permittedPhase_ne_fault i)] at ht
          exact .inr (.inr (.inr ⟨i, hq, hs.symm, ht.symm⟩))
        · rw [inPhase_other hq hf] at hs
          rw [inPhase_other (hp ▸ hq) hg] at ht
          exact .inr (.inr (.inl ⟨_, hf, hs.symm, ht.symm⟩))

/-- A run of `n + 1` steps is a step and a run of `n`. -/
theorem run_succ {n : Nat} {s t : State} (h : step s = .next t) : core.run (n + 1) s = core.run n t := by
  have h' : core.step s = .next t := h
  simp only [Host.Core.run, h']

@[simp] theorem run_zero (s : State) : core.run 0 s = .next s := rfl

/-- A permitted command does not enter `FAULT` (60_exceptions.md R118). -/
theorem effectOf_not_fault (i : Instr) (s : State) (h : s.phase = permittedPhase i) :
    (effectOf i s).phase ≠ .fault := by
  cases i with
  | start => simp [effectOf]
  | resume => simp [effectOf]
  | data x => simp [effectOf, (absorb_frame x s).1, h, permittedPhase]
  | finish => simp [effectOf]

/-- No command writes the error registers, the strap or the input stream. -/
theorem effectOf_keeps (i : Instr) (s : State) :
    (effectOf i s).err = s.err ∧ (effectOf i s).errCode = s.errCode ∧ (effectOf i s).legacySeed = s.legacySeed ∧
    (effectOf i s).input = s.input := by
  cases i with
  | start => simp [effectOf]
  | resume => simp [effectOf]
  | data x => have := absorb_frame x s; simp [effectOf, this]
  | finish => simp [effectOf]

/-- A command neither reads nor writes the input stream. -/
theorem effectOf_withInput (i : Instr) (r : List InputEvent) (s : State) :
    effectOf i (withInput r s) = withInput r (effectOf i s) := by
  cases i with
  | data x =>
    show absorb x _ = withInput r (absorb x s)
    obtain ⟨h1, h⟩ | ⟨h1, h⟩ := absorb_cases x s
    · obtain ⟨-, h'⟩ | ⟨h2, h'⟩ := absorb_cases x (withInput r s)
      · rw [h, h']; rfl
      · exact absurd h1 h2
    · obtain ⟨h2, h'⟩ | ⟨h2, h'⟩ := absorb_cases x (withInput r s)
      · exact absurd h2 h1
      · rw [h, h']; rfl
  | _ => rfl

/-- What a command does is independent of what is presented after it. -/
theorem exec_withInput (i : Instr) (r : List InputEvent) {s t : State} (h : exec i s = .next t) :
    exec i (withInput r s) = .next (withInput r t) := by
  rw [exec_eq] at h ⊢
  injection h with h
  subst h
  obtain ⟨hp, hq⟩ | ⟨h0, hp, hq⟩ | ⟨h0, hp, hq⟩ := inPhase_cases (permittedPhase i) (effectOf i) s
  · rw [hq, inPhase_fault (by simpa using hp)]
  · rw [hq, inPhase_permitted (by simpa using hp) (permittedPhase_ne_fault i), effectOf_withInput]
  · rw [hq, inPhase_other (by simpa using hp) (by simpa using h0)]; rfl

theorem applyEvent_word (cw : CommandWord) (s : State) : applyEvent (.word cw) s = acceptWord cw s := rfl

/-- Every event has a next state, and leaves the rest of the input stream alone (20_memory.md R46). -/
theorem applyEvent_total (ev : InputEvent) (s : State) : ∃ t, applyEvent ev s = .next t ∧ t.input = s.input := by
  cases ev with
  | reset => exact ⟨_, rfl, rfl⟩
  | word cw =>
    simp only [applyEvent, acceptWord]
    split
    · exact ⟨_, rfl, rfl⟩
    · split
      · exact ⟨_, rfl, rfl⟩
      · rename_i i _
        refine ⟨_, exec_eq i s, ?_⟩
        obtain ⟨_, h⟩ | ⟨_, _, h⟩ | ⟨_, _, h⟩ := inPhase_cases (permittedPhase i) (effectOf i) s <;> rw [h]
        · exact (effectOf_keeps i s).2.2.2
        · rfl

/-- What an event does is independent of what is presented after it. -/
theorem applyEvent_withInput (ev : InputEvent) (r : List InputEvent) {s t : State} (h : applyEvent ev s = .next t) :
    applyEvent ev (withInput r s) = .next (withInput r t) := by
  cases ev with
  | reset => injection h with h; subst h; rfl
  | word cw =>
    simp only [applyEvent, acceptWord] at h ⊢
    by_cases hp : s.phase = .fault
    · rw [if_pos hp] at h; rw [if_pos (show (withInput r s).phase = .fault from hp)]; injection h with h; subst h; rfl
    · rw [if_neg hp] at h; rw [if_neg (show ¬ (withInput r s).phase = .fault from hp)]
      split at h
      · injection h with h; subst h; rfl
      · exact exec_withInput _ r h

/-- Running two sequences of events one after the other is running their concatenation (20_memory.md R40). -/
theorem runEvents_append (as bs : List InputEvent) {s t : State} (h : runEvents as s = .next t) :
    runEvents (as ++ bs) s = runEvents bs t := by
  induction as generalizing s with
  | nil => injection h with h; subst h; rfl
  | cons ev evs ih =>
    obtain ⟨u, hu, -⟩ := applyEvent_total ev s
    simp only [runEvents, hu, List.cons_append] at h ⊢
    exact ih h

end Sys2Proof.Machine
end

