-- ==== Sys2Proof/Laws/Bounds.lean ====
section
/-! SUPPORT. The numeric bounds of the accumulators inside a block (44_arithmetic_laws.md R100). -/

namespace Sys2Proof.Machine

theorem triangle_succ (n : Nat) : 255 * (n+1) * (n + 1 + 1) / 2 = 255 * n * (n + 1) / 2 + 255 * (n+1) := by
  have : 255 * (n+1) * (n + 1 + 1) = 255 * n * (n + 1) + 2 * (255 * (n+1)) := by ring
  rw [this]; omega

theorem triangle_mono {n m : Nat} (h : n ≤ m) : 255 * n * (n + 1) / 2 ≤ 255 * m * (m+1) / 2 := by
  apply Nat.div_le_div_right; gcongr

/-- A byte takes the bounds of `n` bytes to those of `n + 1` (44_arithmetic_laws.md R100). -/
theorem bounds_succ {a b n x : Nat} (h : WithinBounds a b n) (hx : x < 256) :
    WithinBounds (a + x) (b + (a + x)) (n+1) := by
  obtain ⟨h1, h2⟩ := h
  have := triangle_succ n
  constructor <;> omega

/-- The largest accumulators inside a block (44_arithmetic_laws.md R100). -/
theorem bounds_top {a b n : Nat} (h : WithinBounds a b n) (hn : n ≤ 3850) : a ≤ 1047510 ∧ b ≤ 2144091900 := by
  obtain ⟨h1, h2⟩ := h
  have := triangle_mono hn
  constructor <;> omega

end Sys2Proof.Machine
end

