-- ==== Sys2Proof/Laws/Codec.lean ====
section
/-! SUPPORT. The fields of an encoded command, and of a word put together from its fields. -/

namespace Sys2Proof

@[simp] theorem opOf_append (op : BitVec 2) (arg : Word) : opOf (op ++ arg) = op :=
  BitVec.extractLsb'_append_eq_left

@[simp] theorem argOf_append (op : BitVec 2) (arg : Word) : argOf (op ++ arg) = arg :=
  BitVec.extractLsb'_append_eq_right

@[simp] theorem hiOf_append (hi lo : Half) : hiOf (hi ++ lo) = hi :=
  BitVec.extractLsb'_append_eq_left

@[simp] theorem loOf_append (hi lo : Half) : loOf (hi ++ lo) = lo :=
  BitVec.extractLsb'_append_eq_right

@[simp] theorem rsvdOf_append (r : BitVec 24) (x : Byte) : rsvdOf (r ++ x) = r :=
  BitVec.extractLsb'_append_eq_left

@[simp] theorem byteOf_append (r : BitVec 24) (x : Byte) : byteOf (r ++ x) = x :=
  BitVec.extractLsb'_append_eq_right

/-- A word is its opcode and its operand field. -/
theorem word_eq_fields (cw : CommandWord) : cw = opOf cw ++ argOf cw := by
  apply BitVec.eq_of_getLsbD_eq
  intro i hi
  simp only [opOf, argOf, BitVec.getLsbD_append, BitVec.getLsbD_extractLsb']
  split
  · simp; omega
  · have : 32 + (i - 32) = i := by omega
    simp [this]; omega

/-- A resume value is its halves. -/
theorem arg_eq_halves (arg : Word) : arg = hiOf arg ++ loOf arg := by
  apply BitVec.eq_of_getLsbD_eq
  intro i hi
  simp only [hiOf, loOf, BitVec.getLsbD_append, BitVec.getLsbD_extractLsb']
  split
  · simp; omega
  · have : 16 + (i - 16) = i := by omega
    simp [this]; omega

/-- The operand field of `DATA` is its reserved bits and its byte. -/
theorem arg_eq_rsvd_byte (arg : Word) : arg = rsvdOf arg ++ byteOf arg := by
  apply BitVec.eq_of_getLsbD_eq
  intro i hi
  simp only [rsvdOf, byteOf, BitVec.getLsbD_append, BitVec.getLsbD_extractLsb']
  split
  · simp; omega
  · have : 8 + (i - 8) = i := by omega
    simp [this]; omega

/-- The decoder on a word given by its two fields (30_encoding.md R54). -/
theorem decode_append (op : BitVec 2) (arg : Word) : decode (op ++ arg) =
  if op = 0b00#2 then
    if arg = 0#32 then .command .start else .fault .illegalArg
  else if op = 0b01#2 then
    .command (.resume (hiOf (arg)) (loOf (arg)))
  else if op = 0b10#2 then
    if rsvdOf (arg) = 0#24 then .command (.data (byteOf (arg))) else .fault .badByte
  else
    if arg = 0#32 then .command .finish else .fault .illegalArg := by simp [decode]

/-- A word determines its two fields. -/
theorem word_append_inj {o o' : BitVec 2} {a a' : Word} : (o ++ a = o' ++ a') ↔ o = o' ∧ a = a' := by
  constructor
  · intro h
    exact ⟨by simpa using congrArg opOf h, by simpa using congrArg argOf h⟩
  · rintro ⟨rfl, rfl⟩; rfl

end Sys2Proof
end

