-- ==== Sys2Proof/Laws/PerInstr.lean ====
section
/-! SUPPORT. Statements for all commands, one lemma per constructor: the word of a command is legal and bears its opcode
(30_encoding.md R52); every command is well formed. -/

namespace Sys2Proof.Laws

/-- The opcode of a command (30_encoding.md R52). -/
def opcodeOf : Instr → BitVec 2
  | .start => 0b00#2
  | .resume _ _ => 0b01#2
  | .data _ => 0b10#2
  | .finish => 0b11#2

/-- The word of `i` bears `i`'s opcode, and its operand field is in the range of `i`'s format (30_encoding.md R51). -/
def EncodedFields.Statement (i : Instr) : Prop :=
  opOf (encode i) = opcodeOf i ∧ i.wf = true ∧
    match i with
    | .start => argOf (encode i) = 0#32
    | .resume hi lo => hiOf (argOf (encode i)) = hi ∧ loOf (argOf (encode i)) = lo
    | .data x => rsvdOf (argOf (encode i)) = 0#24 ∧ byteOf (argOf (encode i)) = x
    | .finish => argOf (encode i) = 0#32

theorem EncodedFields.start : EncodedFields.Statement .start := by
  unfold EncodedFields.Statement; decide

theorem EncodedFields.resume (hi lo : Half) : EncodedFields.Statement (.resume hi lo) := by
  have h := (hi ++ lo).isLt
  refine ⟨by simp [encode, opcodeOf], ?_, by simp [encode], by simp [encode]⟩
  simp only [Instr.wf, resumeOperandOk, decide_eq_true_eq]
  omega

theorem EncodedFields.data (x : Byte) : EncodedFields.Statement (.data x) := by
  have h := x.isLt
  refine ⟨by simp [encode, opcodeOf], ?_, by simp [encode], by simp [encode]⟩
  simp only [Instr.wf, byteOperandOk, decide_eq_true_eq]
  omega

theorem EncodedFields.finish : EncodedFields.Statement .finish := by
  unfold EncodedFields.Statement; decide

/-- The operands' types hold them in range, so every command is well formed. -/
theorem wf_all (i : Instr) : i.wf = true := by
  cases i with
  | start => exact EncodedFields.start.2.1
  | resume hi lo => exact (EncodedFields.resume hi lo).2.1
  | data x => exact (EncodedFields.data x).2.1
  | finish => exact EncodedFields.finish.2.1

end Sys2Proof.Laws
end

