-- ==== Sys2Proof/Laws/Readable.lean ====
section
/-! SUPPORT. States up to what a claim may read of `sum` (10_state.md R18). -/

namespace Sys2Proof.Machine

/-- Equal states are the same to every claim. -/
theorem sameReadable_of_eq {t u : State} (h : t = u) : SameReadable t u := by
  subst h; exact ⟨rfl, fun _ => rfl⟩

/-- An outcome known outright is also known up to `SameReadable`. -/
theorem answers_readable {o : Host.Outcome State Fault Refusal} {u : State} (h : o = .next u) :
    ∃ t, o = .next t ∧ SameReadable t u := ⟨u, h, sameReadable_of_eq rfl⟩

/-- With the result shown, `SameReadable` is equality. -/
theorem eq_of_sameReadable {t u : State} (h : SameReadable t u) (hd : u.done = true) : t = u := by
  have h1 := h.1
  rw [h.2 hd] at h1
  exact h1

/-- What a host may take as the result agrees. -/
theorem resultOf_sameReadable {t u : State} (h : SameReadable t u) : resultOf t = resultOf u := by
  have hd : t.done = u.done := by rw [h.1]
  unfold resultOf
  rw [hd]
  split
  · rw [h.2 ‹_›]
  · rfl

end Sys2Proof.Machine
end

