-- ==== Sys2Proof/Laws/Reference.lean ====
section
/-! SUPPORT. The reference function over a concatenation, and its halves (44_arithmetic_laws.md R102, R105). -/

namespace Sys2Proof.Machine

theorem byteSum_append (a b : List Byte) : byteSum (a ++ b) = byteSum a + byteSum b := by
  induction a with
  | nil => simp [byteSum]
  | cons x xs ih => simp [byteSum, ih]; omega

theorem weightedSum_append (a b : List Byte) :
    weightedSum (a ++ b) = weightedSum a + b.length * byteSum a + weightedSum b := by
  induction a with
  | nil => simp [weightedSum, byteSum]
  | cons x xs ih => simp only [List.cons_append, weightedSum, byteSum, ih, List.length_append]; ring

theorem adlerNat_lt (r : Word) (bs : List Byte) : adlerNat r bs < 2^32 := by
  unfold adlerNat
  have h1 : adlerLow r bs < 65521 := Nat.mod_lt _ (by decide)
  have h2 : adlerHigh r bs < 65521 := Nat.mod_lt _ (by decide)
  omega

/-- The low half of a reference value (44_arithmetic_laws.md R102). -/
theorem adler_lo (r : Word) (bs : List Byte) : (loOf (adler r bs)).toNat = adlerLow r bs := by
  have h1 : adlerLow r bs < 65521 := Nat.mod_lt _ (by decide)
  have h2 : adlerHigh r bs < 65521 := Nat.mod_lt _ (by decide)
  rw [loOf_toNat, adler, BitVec.toNat_ofNat, Nat.mod_eq_of_lt (adlerNat_lt r bs), adlerNat]; omega

/-- The high half of a reference value (44_arithmetic_laws.md R102). -/
theorem adler_hi (r : Word) (bs : List Byte) : (hiOf (adler r bs)).toNat = adlerHigh r bs := by
  have h1 : adlerLow r bs < 65521 := Nat.mod_lt _ (by decide)
  have h2 : adlerHigh r bs < 65521 := Nat.mod_lt _ (by decide)
  rw [hiOf_toNat, adler, BitVec.toNat_ofNat, Nat.mod_eq_of_lt (adlerNat_lt r bs), adlerNat]; omega

end Sys2Proof.Machine
end

