-- ==== Sys2Proof/Tests/Slice0.lean ====
section
/-! SUPPORT. Tests: expected values from spec/95_test_vectors.md (its vector numbers stand beside them) and from the
rules; the ill-formed terms the checks refuse; for every statement with hypotheses, a witness that meets them. -/

namespace Sys2Proof.Tests

open Sys2Proof Sys2Proof.Machine

/-! ## Checks refuse what is out of range (30_encoding.md R58, R59), and accept the last value in range -/

theorem test_resume_operand : resumeOperandOk 0x100000000 = false ∧ resumeOperandOk 0xFFFFFFFF = true := by decide
theorem test_byte_operand : byteOperandOk 0x100 = false ∧ byteOperandOk 0xFF = true := by decide
theorem test_raw_word : rawWordOk 0x400000000 = false ∧ rawWordOk 0x3FFFFFFFF = true := by decide
theorem test_str_char : strCharOk (Char.ofNat 0x7F) = false ∧ strCharOk (Char.ofNat 0x1F) = false ∧
    strCharOk '~' = true ∧ strCharOk ' ' = true := by decide
theorem test_line_resume : assembleLine (.resume 0x100000000) = none := by decide
theorem test_line_data : assembleLine (.data 256) = none := by decide
theorem test_line_word : assembleLine (.word 0x400000000) = none := by decide
theorem test_line_bytes : assembleLine (.bytes [1, 256]) = none := by decide
theorem test_line_str : assembleLine (.str ['a', '\n']) = none := by decide
theorem test_line_rep : assembleLine (.rep 2 256) = none := by decide
theorem test_line_compute : assembleLine (.compute [256] none) = none ∧
    assembleLine (.compute [] (some 0x100000000)) = none := by decide

/-! ## Words (95_test_vectors.md V1 to V14) -/

theorem test_decode_start : decode 0x000000000#34 = .command .start ∧ decode 0x000000001#34 = .fault .illegalArg ∧
    decode 0x0FFFFFFFF#34 = .fault .illegalArg := by decide
theorem test_decode_resume : decode 0x100000001#34 = .command (.resume 0x0000#16 0x0001#16) ∧
    decode 0x111E60398#34 = .command (.resume 0x11E6#16 0x0398#16) ∧
    decode 0x1FFFFFFFF#34 = .command (.resume 0xFFFF#16 0xFFFF#16) := by decide
theorem test_decode_data : decode 0x200000000#34 = .command (.data 0x00#8) ∧
    decode 0x2000000FF#34 = .command (.data 0xFF#8) ∧ decode 0x200000100#34 = .fault .badByte ∧
    decode 0x280000041#34 = .fault .badByte := by decide
theorem test_decode_finish : decode 0x300000000#34 = .command .finish ∧ decode 0x300000001#34 = .fault .illegalArg ∧
    decode 0x3FFFFFFFF#34 = .fault .illegalArg := by decide
theorem test_table_word : decodeTableWord 40 0x200000057 = some (.data 0x57#8) ∧
    decodeTableWord 34 0x300000000 = some .finish ∧ decodeTableWord 40 0x200000100 = none ∧
    decodeTableWord 40 0x400000000 = none := by decide
theorem test_legal_words : legalWord 0x200000057#34 = true ∧ legalWord 0x200000100#34 = false ∧
    legalWord 0x000000001#34 = false ∧ legalWord 0x1FFFFFFFF#34 = true ∧ legalWord 0x300000000#34 = true := by decide

/-! ## States -/

/-- An engine in `ACTIVE`. -/
def active (a b : Word) (cnt : Count) (input : List InputEvent) : State :=
  { State.reset with a := a, b := b, cnt := cnt, phase := .active, input := input }

/-- An engine in `IDLE`, before the first call. -/
def idle (input : List InputEvent) : State := { State.reset with input := input }

/-- An engine in `FAULT`, after `BAD_BYTE` (the state before V79). -/
def faulted (input : List InputEvent) : State :=
  { State.reset with a := 98#32, b := 98#32, cnt := 1#12, phase := .fault, err := true, errCode := 2#2, input := input }

/-- The next state, if there is one. -/
def next? : Host.Outcome State Fault Refusal → Option State
  | .next t => some t
  | .fault _ => none
  | .refused _ => none

/-- `a`, `b`, `cnt`, as the tables of 95_test_vectors.md write a state. -/
def accs (o : Host.Outcome State Fault Refusal) : Option (Nat × Nat × Nat) :=
  (next? o).map fun t => (t.a.toNat, t.b.toNat, t.cnt.toNat)

/-- `phase`, `done`, `err`, `err_code`. -/
def flags (o : Host.Outcome State Fault Refusal) : Option (Phase × Bool × Bool × BitVec 2) :=
  (next? o).map fun t => (t.phase, t.done, t.err, t.errCode)

/-! ## One step of each command -/

/-- V15. -/
theorem test_start : accs (exec .start (idle [])) = some (1, 0, 0) ∧
    flags (exec .start (idle [])) = some (.active, false, false, 0#2) := by decide
/-- V72: no implicit restart. -/
theorem test_start_in_call : accs (exec .start (active 98 98 1 [])) = some (98, 98, 1) ∧
    flags (exec .start (active 98 98 1 [])) = some (.fault, false, true, 3#2) := by decide
/-- V17. -/
theorem test_resume : accs (exec (.resume 0x03DA#16 0x0195#16) (idle [])) = some (405, 986, 0) := by decide
/-- V18 with `LEGACY_SEED = true`. -/
theorem test_resume_legacy : accs (exec (.resume 0xFFFF#16 0xFFFF#16) { idle [] with legacySeed := true }) =
    some (65535, 0, 0) := by decide
/-- V62: `b` adds the new `a`. -/
theorem test_data : accs (exec (.data 0x69#8) (active 88 88 1 [])) = some (193, 281, 2) := by decide
/-- V65: the reduction at the 3850th byte. -/
theorem test_data_reduces : accs (exec (.data 0xFF#8) (active 981496 1889381724 3849 [])) =
    some (64457, 475751, 0) := by decide
/-- V24: `cnt = 0`, no shift-reduction. -/
theorem test_finish : (next? (exec .finish (active 64457 475751 0 []))).map (·.sum) = some 0x42D0FBC9#32 := by decide
/-- V25: `cnt = 1`, shift-reduction first. -/
theorem test_finish_partial :
    (next? (exec .finish (active 64712 540463 1 []))).map (fun t => (t.sum, t.history, t.done, t.phase)) =
      some (0x3FA7FCC8#32, [0x3FA7FCC8#32], true, .idle) := by decide

/-! ## Steps -/

/-- V75 and V76: decode faults have priority; the table's word is the one fetched. -/
theorem test_priority : flags (step (State.reset.withFetchWord 40 0x200000100)) = some (.fault, false, true, 2#2) ∧
    flags (step (State.reset.withFetchWord 40 0x300000001)) = some (.fault, false, true, 1#2) := by decide
/-- V79: discarded. -/
theorem test_discard : next? (step (faulted [.word 0x3FFFFFFFF#34])) = some (faulted []) := by decide
/-- V80: a reset from `FAULT`. -/
theorem test_reset : flags (step (faulted [.reset])) = some (.idle, false, false, 0#2) := by decide

/-! ## The assembler (30_encoding.md R58 to R60, 95_test_vectors.md P1, P2) -/

theorem test_parse_data : parseLine ['D', 'A', 'T', 'A', ' ', '0', 'x', '5', '7', ' ', ';', ' ', 'W'] =
    some [.data 0x57] := by decide
theorem test_parse_compute :
    parseLine ['C', 'O', 'M', 'P', 'U', 'T', 'E', ' ', '[', '1', ',', ' ', '2', ']', ',', ' ', '9'] =
      some [.compute [1, 2] (some 9)] := by decide
theorem test_parse_bad : parseLine ['d', 'a', 't', 'a', ' ', '1'] = none ∧
    parseLine ['D', 'A', 'T', 'A', ' ', '1', 'x'] = none ∧ parseLine [' ', ';', '"'] = some [] := by decide
theorem test_str : parseLine ['S', 'T', 'R', ' ', '"', 'W', 'i', ';', '"'] = some [.str ['W', 'i', ';']] ∧
    assembleLine (.str ['W', 'i']) = some [0x200000057#34, 0x200000069#34] := by decide
theorem test_rep : assemble [.start, .rep 2 0xFF, .finish] =
    some [0x000000000#34, 0x2000000FF#34, 0x2000000FF#34, 0x300000000#34] := by decide
theorem test_word_text : wordText 0x103DA0195#34 = ['0', 'x', '1', '0', '3', 'D', 'A', '0', '1', '9', '5'] := by decide

/-! ## The reference value (95_test_vectors.md V37, V58, P2 with `LEGACY_SEED = true`) -/

theorem test_adler : adler 1#32 [0x61#8, 0x62#8, 0x63#8] = 0x024D0127#32 ∧
    adler 0x12345678#32 [0x61#8, 0x62#8, 0x63#8] = 0x17F5579E#32 ∧
    adler (0x12345678#32 &&& 0xFFFF#32) [0x61#8, 0x62#8, 0x63#8] = 0x05C1579E#32 := by decide

/-! ## Witnesses: concrete values that meet a statement's hypotheses together, each clause at a boundary -/

theorem inv_intro {s : State} (h1 : FaultFlags s) (h2 : OpenCallBounds s) (h3 : DoneMeansResult s)
    (h4 : IdleAfterFinish s) (h5 : s.history = []) : Inv s := ⟨h1, h2, h3, h4, by simp [h5]⟩

theorem wit_inv_idle : Inv (idle []) :=
  inv_intro (by decide) (fun h => by cases h) (fun h => by cases h) (fun _ h => by cases h) rfl
theorem wit_inv_fault : Inv (faulted []) :=
  inv_intro (by decide) (fun h => by cases h) (fun h => by cases h) (fun h => by cases h) rfl
/-- The last byte of a block, at the bounds of 44_arithmetic_laws.md R100. -/
theorem wit_inv_active_last : Inv (active 1047255 2143044390 3849 []) :=
  inv_intro (by decide) (by decide) (fun h => by cases h) (fun h => by cases h) rfl
theorem wit_inv_active_first : Inv (active 65760 556275 0 []) :=
  inv_intro (by decide) (by decide) (fun h => by cases h) (fun h => by cases h) rfl

theorem wit_EncodeOfDecode : decode 0x300000000#34 = .command .finish := by decide
theorem wit_DecodeByFieldValues : (faulted []).phase = .fault ∧ (3 < 4 ∧ 0xFFFFFFFF < 2 ^ 32) ∧ (2 < 4 ∧ 0x100 < 2 ^ 32) ∧ (1 < 4 ∧ 0 < 2 ^ 32) ∧
    (0 < 4 ∧ 0 < 2 ^ 32) := by decide
theorem wit_StartCompletes : (idle []).phase = .idle := by decide
theorem wit_ResumeCompletes : (idle []).phase = .idle ∧ ({ idle [] with legacySeed := true } : State).phase = .idle := by
  decide
theorem wit_DataCompletes : (active 0 0 3849 []).phase = .active ∧ (active 0 0 3849 []).cnt.toNat + 1 = 3850 ∧
    (active 0 0 3848 []).cnt.toNat + 1 ≠ 3850 := by decide
theorem wit_FinishCompletes : (active 0 0 0 []).phase = .active ∧ ¬ 0 < (active 0 0 0 []).cnt.toNat ∧
    0 < (active 0 0 1 []).cnt.toNat := by decide
theorem wit_StartWordOutcomes : (faulted []).phase = .fault ∧ (active 0 0 0 []).phase = .active ∧
    (idle []).phase = .idle ∧ (1#32 : Word) ≠ 0#32 := by decide
theorem wit_ResumeWordOutcomes : (faulted []).phase = .fault ∧ (active 0 0 0 []).phase = .active ∧
    (idle []).phase = .idle := by decide
theorem wit_DataWordOutcomes : Inv (faulted []) ∧ Inv (idle []) ∧ Inv (active 1047255 2143044390 3849 []) ∧
    Inv (active 65760 556275 0 []) ∧ 0xFF < (0x100#32 : Word).toNat ∧ (0xFF#32 : Word).toNat ≤ 0xFF :=
  ⟨wit_inv_fault, wit_inv_idle, wit_inv_active_last, wit_inv_active_first, by decide, by decide⟩
theorem wit_FinishWordOutcomes : (faulted []).phase = .fault ∧ (idle []).phase ≠ .fault ∧ (1#32 : Word) ≠ 0#32 ∧
    (idle []).phase = .idle ∧ (active 0 0 0 []).phase = .active := by decide
theorem wit_CommandOutOfPhaseTakesSeqErr : (active 0 0 0 []).phase = .active ∧ (idle []).phase = .idle := by decide
theorem wit_UndecodableWordTakesItsFault :
    ((idle [.word 0x300000001#34]).phase ≠ .fault ∧ NextWord 0x300000001#34 [] (idle [.word 0x300000001#34]) ∧
      decode 0x300000001#34 = .fault .illegalArg) ∧
    ((active 0 0 0 [.word 0x200000100#34]).phase ≠ .fault ∧
      NextWord 0x200000100#34 [] (active 0 0 0 [.word 0x200000100#34]) ∧
      decode 0x200000100#34 = .fault .badByte) := by decide
theorem wit_FaultEntryWritesThreeRegisters :
    step (idle [.word 0x300000000#34]) = .next (Faulted 3#2 (idle [])) ∧ (idle [.word 0x300000000#34]).phase ≠ .fault ∧
      (Faulted 3#2 (idle [])).phase = .fault := ⟨rfl, by decide, by decide⟩
theorem wit_FaultPhaseDiscards : (faulted [.word 0x3FFFFFFFF#34]).phase = .fault ∧
    NextWord 0x3FFFFFFFF#34 [] (faulted [.word 0x3FFFFFFFF#34]) ∧ (faulted [.reset]).phase = .fault ∧
    step (faulted [.reset]) = .next (applyReset (faulted [])) ∧ (applyReset (faulted [])).phase ≠ .fault :=
  ⟨by decide, by decide, by decide, rfl, by decide⟩
theorem wit_OnlyResetClearsTheError :
    step (faulted [.reset]) = .next (applyReset (faulted [])) ∧
      ((faulted [.reset]).err = true ∧ (applyReset (faulted [])).err = false) ∧
      ((faulted [.reset]).errCode ≠ 0#2 ∧ (applyReset (faulted [])).errCode = 0#2) := ⟨rfl, by decide, by decide⟩
theorem wit_FirstCauseIsKept :
    FaultFlags (faulted [.word 0x000000001#34]) ∧ (faulted [.word 0x000000001#34]).err = true ∧
      step (faulted [.word 0x000000001#34]) = .next (faulted []) ∧
      ∀ rest, (faulted [.word 0x000000001#34]).input ≠ .reset :: rest :=
  ⟨by decide, by decide, rfl, fun _ h => by cases h⟩
theorem wit_StepRunsTheDecodedCommand :
    NextWord 0x2000000FF#34 [] (active 1 0 0 [.word 0x2000000FF#34]) ∧
      decode 0x2000000FF#34 = .command (.data 0xFF#8) ∧ (Instr.data 0xFF#8).wf = true := by decide
theorem wit_WithoutInputStateIsKept : (active 1 0 0 []).input = [] := by decide
theorem wit_RunIsTheLeftFold : (idle [.word 0#34, .reset]).input = [.word 0#34] ++ [.reset] := by decide
theorem wit_ResetEventResets : (active 1 0 0 [.reset]).input = .reset :: [] := by decide
theorem wit_ResetWinsAtTheEdge :
    (PortEdge.mk true true true 0#34).rst = true ∧
    ((PortEdge.mk false true true 0#34).rst = false ∧ (PortEdge.mk false true true 0#34).cmdValid = true ∧
      (PortEdge.mk false true true 0#34).cmdReady = true) ∧
    ((PortEdge.mk false false true 0#34).rst = false ∧ (PortEdge.mk false false true 0#34).cmdValid = false) ∧
    (PortEdge.mk false true false 0#34).cmdReady = false := by decide
theorem wit_PinsRunTheirEvents : (idle [.word 0#34, .reset]).input =
    edgeEvents [⟨false, true, false, 0#34⟩, ⟨false, true, true, 0#34⟩, ⟨true, true, true, 0#34⟩] ++ [] := by decide
theorem wit_StepKeepsInvariant :
    Inv (active 65760 556275 0 [.word 0x300000000#34]) ∧
      step (active 65760 556275 0 [.word 0x300000000#34]) = .next (closeCall (active 65760 556275 0 [])) :=
  ⟨inv_intro (by decide) (by decide) (fun h => by cases h) (fun h => by cases h) rfl, rfl⟩
theorem wit_ResetEstablishesInvariant :
    (active 0xFFFFFFFF 0xFFFFFFFF 0xFFF [.reset]).input = .reset :: [] ∧
      (∀ v ∈ (active 0xFFFFFFFF 0xFFFFFFFF 0xFFF [.reset]).history, ResultRange v) ∧
      step (active 0xFFFFFFFF 0xFFFFFFFF 0xFFF [.reset]) =
        .next (applyReset (active 0xFFFFFFFF 0xFFFFFFFF 0xFFF [])) :=
  ⟨by decide, by simp [active, State.reset], rfl⟩
theorem wit_NoAccumulatorWraps : Inv (active 1047255 2143044390 3849 []) ∧
    (active 1047255 2143044390 3849 []).phase = .active := ⟨wit_inv_active_last, by decide⟩
theorem wit_OnlyFinishEmits :
    (step (active 1 0 0 [.word 0x300000000#34]) = .next (closeCall (active 1 0 0 [])) ∧
      (active 1 0 0 [.word 0x300000000#34]).phase = .active ∧
      (active 1 0 0 [.word 0x300000000#34]).input.head? = some (.word (encode .finish))) ∧
    step (idle [.word 0x300000000#34]) = .next (Faulted 3#2 (idle [])) := ⟨⟨rfl, by decide, by decide⟩, rfl⟩
/-- An engine in `IDLE` that shows the result of the empty call. -/
def showing (evs : List InputEvent) : State := { idle evs with done := true, sum := 1#32 }

/-- `FINISH`; and a command out of phase while a result is shown, which keeps it shown. -/
theorem wit_OnlyFinishWritesSum :
    step (active 1 0 0 [.word 0x300000000#34]) = .next (closeCall (active 1 0 0 [])) ∧
      (active 1 0 0 [.word 0x300000000#34]).phase = .active ∧
      (active 1 0 0 [.word 0x300000000#34]).input.head? = some (.word (encode .finish)) ∧
      step (showing [.word 0x200000061#34]) = .next (Faulted 3#2 (showing [])) ∧
      (showing [.word 0x200000061#34]).phase ≠ .active ∧ (Faulted 3#2 (showing [])).done = true :=
  ⟨rfl, by decide, by decide, rfl, by decide, by decide⟩
/-- Both sides of `SameReadable`'s condition occur: a result shown, and none shown. -/
theorem wit_SameReadable :
    SameReadable (Faulted 3#2 (showing [])) (Faulted 3#2 (showing [])) ∧ (Faulted 3#2 (showing [])).done = true ∧
      SameReadable { idle [] with sum := 7#32 } (idle []) ∧ ¬ SameReadable { showing [] with sum := 7#32 } (showing []) :=
  by decide
theorem wit_WhoWritesDone :
    step (idle [.reset]) = .next (applyReset (idle [])) ∧
    (OpensCall (.word 0#34) (idle [.word 0#34]) ∧ step (idle [.word 0#34]) = .next (openCall 1#32 0#32 (idle []))) ∧
    (ClosesCall (.word 0x300000000#34) (active 1 0 0 [.word 0x300000000#34]) ∧
      step (active 1 0 0 [.word 0x300000000#34]) = .next (closeCall (active 1 0 0 []))) ∧
    (¬ OpensCall (.word 0#34) (active 1 0 0 [.word 0#34]) ∧ ¬ ClosesCall (.word 0#34) (active 1 0 0 [.word 0#34]) ∧
      step (active 1 0 0 [.word 0#34]) = .next (Faulted 3#2 (active 1 0 0 []))) :=
  ⟨rfl, ⟨⟨rfl, .inl rfl⟩, rfl⟩, ⟨⟨rfl, rfl⟩, rfl⟩, ⟨fun h => Phase.noConfusion h.1, by decide, rfl⟩⟩
theorem wit_StrapNeverChanges : step (idle [.reset]) = .next (applyReset (idle [])) := rfl
theorem wit_OutputsShowThePhase : Inv (idle []) ∧ Inv (faulted []) ∧ Inv (active 65760 556275 0 []) :=
  ⟨wit_inv_idle, wit_inv_fault, wit_inv_active_first⟩
/-- Two engines with other hidden registers and another number of resets behind them. -/
theorem wit_HiddenRegistersStayHidden :
    Indistinguishable (idle [.word 0#34]) { idle [.word 0#34] with a := 7#32, cnt := 9#12, sum := 5#32, resetDraws := 4 } ∧
      step (idle [.word 0#34]) = .next (openCall 1#32 0#32 (idle [])) ∧
      step { idle [.word 0#34] with a := 7#32, cnt := 9#12, sum := 5#32, resetDraws := 4 } =
        .next (openCall 1#32 0#32 { idle [] with a := 7#32, cnt := 9#12, sum := 5#32, resetDraws := 4 }) :=
  ⟨⟨by decide, fun h => by cases h⟩, rfl, rfl⟩
/-- Two representatives of the residues 1, and another `cnt`. -/
theorem wit_ReductionScheduleIsInvisible :
    Inv (active 65522 1 0 [.word 0x300000000#34]) ∧ Inv (active 1 65522 5 [.word 0x300000000#34]) ∧
      SameResidues (active 65522 1 0 [.word 0x300000000#34]) (active 1 65522 5 [.word 0x300000000#34]) ∧
      step (active 65522 1 0 [.word 0x300000000#34]) = .next (closeCall (active 65522 1 0 [])) ∧
      step (active 1 65522 5 [.word 0x300000000#34]) = .next (closeCall (active 1 65522 5 [])) :=
  ⟨inv_intro (by decide) (by decide) (fun h => by cases h) (fun h => by cases h) rfl,
    inv_intro (by decide) (by decide) (fun h => by cases h) (fun h => by cases h) rfl, by decide, rfl, rfl⟩
theorem wit_InstancesShareNothing : (0 : Nat) ≠ 1 := by decide
theorem wit_PackingIsExact : (65520#32 : Word).toNat ≤ 65520 ∧ (0#32 : Word).toNat ≤ 65520 := by decide
theorem wit_EmittedResultsAreResidues :
    step (active 1 0 0 [.word 0x300000000#34]) = .next (closeCall (active 1 0 0 [])) ∧
      (closeCall (active 1 0 0 [])).history = (active 1 0 0 [.word 0x300000000#34]).history ++ [1#32] :=
  ⟨rfl, by decide⟩
theorem wit_ResumeHalvesActAsResidues :
    (loOf 0x000E000E#32).toNat = (loOf 0xFFFFFFFF#32).toNat % 65521 ∧
      (hiOf 0x000E000E#32).toNat = (hiOf 0xFFFFFFFF#32).toNat % 65521 := by decide
theorem wit_OpenCallIsCongruent : (idle [.word 0#34, .word 0x200000061#34, .reset]).phase = .idle ∧
    (idle [.word 0#34, .word 0x200000061#34, .reset]).input =
      (unfinishedWords ⟨none, [0x61#8]⟩).map InputEvent.word ++ [.reset] := by decide
theorem wit_CallComputesAdler :
    BeforeCall ⟨some 0xFFFFFFFF#32, [0x61#8]⟩ []
      (idle [.word 0x1FFFFFFFF#34, .word 0x200000061#34, .word 0x300000000#34]) ∧
    BeforeCall ⟨none, []⟩ [] (idle [.word 0#34, .word 0x300000000#34]) ∧
    (idle [.word 0#34, .word 0x300000000#34]).legacySeed = false := by decide
theorem wit_LegacyCallIgnoresHighHalf :
    BeforeCall ⟨some 0xFFFFFFFF#32, []⟩ []
      { idle [.word 0x1FFFFFFFF#34, .word 0x300000000#34] with legacySeed := true } ∧
    BeforeCall ⟨none, []⟩ [] { idle [.word 0#34, .word 0x300000000#34] with legacySeed := true } := by decide

/-- The empty call: `START`, `FINISH`. -/
def emptyCall (legacy : Bool) : State := { idle [.word 0#34, .word 0x300000000#34] with legacySeed := legacy }

/-- The empty call resumed from its result 1. -/
def emptyResumed (legacy : Bool) : State :=
  { idle [.word 0x100000001#34, .word 0x300000000#34] with legacySeed := legacy }

theorem wit_ChunkingIsTransparent :
    (emptyCall false).legacySeed = false ∧ (emptyResumed false).legacySeed = false ∧
    BeforeCall ⟨none, []⟩ [] (emptyCall false) ∧
    RunsTo 2 (emptyCall false) (closeCall (openCall 1#32 0#32 { emptyCall false with input := [] })) ∧
    BeforeCall ⟨some (closeCall (openCall 1#32 0#32 { emptyCall false with input := [] })).sum, []⟩ []
      (emptyResumed false) ∧
    BeforeCall ⟨none, [] ++ []⟩ [] (emptyCall false) := ⟨by decide, by decide, by decide, rfl, by decide, by decide⟩
theorem wit_LegacyChainingFails :
    (emptyCall true).legacySeed = true ∧ (emptyResumed true).legacySeed = true ∧
    BeforeCall ⟨none, []⟩ [] (emptyCall true) ∧
    RunsTo 2 (emptyCall true) (closeCall (openCall 1#32 0#32 { emptyCall true with input := [] })) ∧
    BeforeCall ⟨some (closeCall (openCall 1#32 0#32 { emptyCall true with input := [] })).sum, []⟩ []
      (emptyResumed true) ∧
    BeforeCall ⟨none, [] ++ []⟩ [] (emptyCall true) := ⟨by decide, by decide, by decide, rfl, by decide, by decide⟩
theorem wit_SameCallSameResult :
    BeforeCall ⟨none, []⟩ [] (emptyCall false) ∧
    BeforeCall ⟨none, []⟩ [.reset] (idle [.word 0#34, .word 0x300000000#34, .reset]) ∧
    (emptyCall false).legacySeed = (idle [.word 0#34, .word 0x300000000#34, .reset]).legacySeed := by decide
theorem wit_WholeCallsNeverFault : (emptyCall false).phase = .idle ∧
    (emptyCall false).input = ([⟨none, []⟩].flatMap callWords).map InputEvent.word ++ [] := by decide
theorem wit_GrammarIsFaultFree : (idle [.word 0#34, .word 0#34]).phase = .idle ∧
    (idle [.word 0#34, .word 0#34]).input = [0#34, 0#34].map InputEvent.word := by decide
theorem wit_ComputeExpandsToACall : (AsmLine.compute [0, 0xFF] (some 0xFFFFFFFF)).wf = true ∧
    (AsmLine.compute [] none).wf = true := by decide

end Sys2Proof.Tests
end

/-! PROOF. The strap `LEGACY_SEED` is fixed at build time (00_scope.md R5). -/

namespace Sys2Proof.Machine

/-- No input event writes the strap (00_scope.md R5), a reset included. -/
theorem applyEvent_keeps_legacySeed {ev : InputEvent} {s t : State} (h : applyEvent ev s = .next t) :
    t.legacySeed = s.legacySeed := by
  obtain ⟨-, rfl⟩ | ⟨cw, -, -, rfl⟩ | ⟨cw, c, -, -, rfl⟩ | ⟨cw, i, -, -, -, rfl⟩ := applyEvent_cases h
  · exact applyReset_legacySeed s
  · rfl
  · exact takeFault_legacySeed s c
  · obtain ⟨-, -, hstrap, -⟩ := effectOf_keeps i s
    exact hstrap

/-- Settles O35: a step does nothing or applies one event, and neither taking the event nor applying it writes the
strap. -/
theorem strapNeverChanges : Obligations.StrapNeverChanges := by
  intro s t h
  obtain ⟨-, rfl⟩ | ⟨ev, rest, -, hev⟩ := step_cases h
  · rfl
  · rw [applyEvent_keeps_legacySeed hev, withInput_legacySeed]

end Sys2Proof.Machine

/-! PROOF. A command's word is the only word that decodes to it (30_encoding.md R52, R54). -/

namespace Sys2Proof

/-- The decoder recovers the command from its word. -/
theorem decode_encode (i : Instr) : decode (encode i) = .command i := by
  cases i with
  | start => decide
  | finish => decide
  | resume hi lo => simp [encode, decode_append]
  | data x => simp [encode, decode_append]

/-- A word that decodes to a command is that command's word. -/
theorem encode_of_decode {cw : CommandWord} {i : Instr} (h : decode cw = .command i) : encode i = cw := by
  rw [word_eq_fields cw, decode_append] at h
  rw [word_eq_fields cw]
  split at h
  next hop =>
    split at h <;> cases h
    next harg => rw [hop, harg]; rfl
  next =>
    split at h
    next hop =>
      cases h
      rw [hop, encode, ← arg_eq_halves]
    next =>
      split at h
      next hop =>
        split at h <;> cases h
        next hrsvd => rw [hop, encode, ← hrsvd, ← arg_eq_rsvd_byte]
      next hstart hresume hdata =>
        split at h <;> cases h
        next harg =>
          have hop : opOf cw = 0b11#2 := by bv_omega
          rw [hop, harg]; rfl

theorem decode_eq_command_iff {cw : CommandWord} {i : Instr} : decode cw = .command i ↔ cw = encode i :=
  ⟨fun h => (encode_of_decode h).symm, fun h => h ▸ decode_encode i⟩

end Sys2Proof

/-! PROOF. Reset (10_state.md R26, 70_reset_and_hazards.md R140). -/

namespace Sys2Proof.Machine

/-- Settles O24: the step applies the reset, whose written and kept fields are as claimed. -/
theorem resetEventResets : Obligations.ResetEventResets := by
  intro s rest hin
  exact ⟨applyReset (withInput rest s), step_of_input hin, rfl, rfl, rfl, rfl, rfl, rfl, rfl, rfl⟩

/-- Settles O25: the values the spec gives stand in `State.reset`. -/
theorem resetStateIsAsSpecified : Obligations.ResetStateIsAsSpecified :=
  ⟨rfl, rfl, rfl, rfl, rfl, rfl, rfl⟩

end Sys2Proof.Machine

/-! PROOF. The error registers `err` and `err_code` (10_state.md R20, R21). -/

namespace Sys2Proof.Machine

theorem Cause.code_ne_zero (c : Cause) : c.code ≠ 0#2 := by
  cases c <;> decide

/-- An accepted word keeps the error registers, or, outside `FAULT`, records a cause. -/
theorem applyEvent_word_err {cw : CommandWord} {s t : State} (h : applyEvent (.word cw) s = .next t) :
    (t.err = s.err ∧ t.errCode = s.errCode) ∨ (s.phase ≠ .fault ∧ t.err = true ∧ t.errCode ≠ 0#2) := by
  obtain ⟨hev, -⟩ | ⟨_, -, -, rfl⟩ | ⟨_, c, -, hp, rfl⟩ | ⟨_, i, -, -, -, rfl⟩ := applyEvent_cases h
  · cases hev
  · exact .inl ⟨rfl, rfl⟩
  · exact .inr ⟨hp, rfl, c.code_ne_zero⟩
  · obtain ⟨herr, hcode, -, -⟩ := effectOf_keeps i s
    exact .inl ⟨herr, hcode⟩

/-- A step resets the engine, keeps the error registers, or, outside `FAULT`, records a cause. -/
theorem step_err {s t : State} (h : step s = .next t) :
    (∃ rest, s.input = .reset :: rest) ∨ (t.err = s.err ∧ t.errCode = s.errCode) ∨
      (s.phase ≠ .fault ∧ t.err = true ∧ t.errCode ≠ 0#2) := by
  obtain ⟨-, rfl⟩ | ⟨ev, rest, hin, hev⟩ := step_cases h
  · exact .inr (.inl ⟨rfl, rfl⟩)
  · cases ev with
    | reset => exact .inl ⟨rest, hin⟩
    | word cw => exact .inr (applyEvent_word_err (s := withInput rest s) hev)

/-- Settles O18: a step on anything but a reset keeps both error registers or makes both nonzero. -/
theorem onlyResetClearsTheError : Obligations.OnlyResetClearsTheError := by
  intro s t h hclear
  obtain hreset | ⟨herr, hcode⟩ | ⟨-, herr, hcode⟩ := step_err h
  · exact hreset
  · simp [herr, hcode] at hclear
  · simp [herr, hcode] at hclear

/-- Settles O19: with `err` set the phase is `FAULT`, where no step records a cause. -/
theorem firstCauseIsKept : Obligations.FirstCauseIsKept := by
  intro s t ⟨hfault, _⟩ herr h hno
  obtain ⟨rest, hin⟩ | ⟨herr', hcode⟩ | ⟨hp, -⟩ := step_err h
  · exact absurd hin (hno rest)
  · exact ⟨hcode, herr'.trans herr⟩
  · exact absurd (hfault.mp herr) hp

end Sys2Proof.Machine

/-! PROOF. The result register and `done` (10_state.md R18, R19). -/

namespace Sys2Proof.Machine

/-- A command in the phase that permits it has its effect (60_exceptions.md R122). -/
theorem applyEvent_permitted {i : Instr} {s : State} (hp : s.phase = permittedPhase i) :
    applyEvent (.word (encode i)) s = .next (effectOf i s) := by
  rw [applyEvent_word, acceptWord_command (decode_encode i), exec_eq,
    inPhase_permitted hp (permittedPhase_ne_fault i)]

/-- An executed opening command clears `done`. -/
theorem done_of_opensCall {ev : InputEvent} {s t : State} (ho : OpensCall ev s) (h : applyEvent ev s = .next t) :
    t.done = false := by
  obtain ⟨hp, rfl | ⟨hi, lo, rfl⟩⟩ := ho
  · rw [applyEvent_permitted (i := .start) hp] at h
    cases h; rfl
  · rw [applyEvent_permitted (i := .resume hi lo) hp] at h
    cases h; rfl

/-- An executed `FINISH` closes the call (42_finalize.md R85). -/
theorem applyEvent_of_closesCall {ev : InputEvent} {s : State} (hc : ClosesCall ev s) :
    applyEvent ev s = .next (closeCall s) := by
  obtain ⟨hp, rfl⟩ := hc
  exact applyEvent_permitted (i := .finish) hp

/-- Every event that is no reset, opens no call and closes none leaves the shown result as it is. -/
theorem applyEvent_keeps_result {ev : InputEvent} {s t : State} (h : applyEvent ev s = .next t) (hr : ev ≠ .reset)
    (ho : ¬ OpensCall ev s) (hc : ¬ ClosesCall ev s) : t.done = s.done ∧ t.sum = s.sum := by
  obtain ⟨rfl, -⟩ | ⟨_, -, -, rfl⟩ | ⟨_, c, -, -, rfl⟩ | ⟨cw, i, rfl, hd, hp, rfl⟩ := applyEvent_cases h
  · exact absurd rfl hr
  · exact ⟨rfl, rfl⟩
  · exact ⟨rfl, rfl⟩
  · obtain rfl := decode_eq_command_iff.mp hd
    cases i with
    | start => exact absurd ⟨hp, .inl rfl⟩ ho
    | resume hi lo => exact absurd ⟨hp, .inr ⟨hi, lo, rfl⟩⟩ ho
    | data x =>
      obtain ⟨-, hsum, hdone, -⟩ := absorb_frame x s
      exact ⟨hdone, hsum⟩
    | finish => exact absurd ⟨hp, rfl⟩ hc

/-- Settles O34: the event that a step applies is a reset, opens a call, closes one, or keeps the shown result. -/
theorem whoWritesDone : Obligations.WhoWritesDone := by
  intro s t ev rest hin h
  rw [step_of_input hin] at h
  refine ⟨?_, fun ho => done_of_opensCall (s := withInput rest s) ho h, fun hc => ?_,
    fun hr ho hc => (applyEvent_keeps_result (s := withInput rest s) h hr ho hc).1⟩
  · rintro rfl
    cases h; rfl
  · rw [applyEvent_of_closesCall (s := withInput rest s) hc] at h
    cases h; rfl

/-- Settles O33: an executed `FINISH` packs the two residues into `sum`, a reset and an opening command hide `sum`, and
every other event keeps it. -/
theorem onlyFinishWritesSum : Obligations.OnlyFinishWritesSum := by
  intro s t h
  obtain ⟨hin, rfl⟩ | ⟨ev, rest, hin, hev⟩ := step_cases h
  · simp [hin]
  · simp only [hin, List.head?_cons, Option.some_inj]
    split
    next hc =>
      rw [applyEvent_of_closesCall (s := withInput rest s) hc] at hev
      cases hev
      exact ⟨rfl, callResult_hi s, callResult_lo s⟩
    next hc =>
      intro hdone
      have hr : ev ≠ .reset := by
        rintro rfl
        cases hev
        cases hdone
      have ho : ¬ OpensCall ev s := fun ho => by
        rw [done_of_opensCall (s := withInput rest s) ho hev] at hdone
        cases hdone
      obtain ⟨hdone', hsum⟩ := applyEvent_keeps_result (s := withInput rest s) hev hr ho hc
      exact ⟨hdone'.symm.trans hdone, hsum⟩

end Sys2Proof.Machine

/-! PROOF. The invariant of 10_state.md R24, with the bounds of 44_arithmetic_laws.md R100: it holds after a reset and
every step keeps it. -/

namespace Sys2Proof.Machine

/-- In `IDLE` with clear flags the invariant only speaks of the results emitted: `a`, `b`, `cnt` and `sum` are free. -/
theorem inv_of_clear_idle {s : State} (hp : s.phase = .idle) (hdone : s.done = false) (herr : s.err = false)
    (hcode : s.errCode = 0#2) (hh : ∀ v ∈ s.history, ResultRange v) : Inv s := by
  refine ⟨by simp [FaultFlags, hp, herr, hcode], fun h => ?_, fun h => ?_, fun _ h => ?_, hh⟩
  · simp [hp] at h
  · simp [hdone] at h
  · simp [hdone] at h

/-- Settles O28: the reset state is in `IDLE` with clear flags and an empty history. -/
theorem invariantAtReset : Obligations.InvariantAtReset :=
  inv_of_clear_idle rfl rfl rfl rfl (by simp [State.reset])

/-- Taking a fault outside `FAULT` keeps a shown result, and leaves nothing else to hold. -/
theorem takeFault_inv {s : State} (c : Cause) (hi : Inv s) : Inv (takeFault c s) := by
  obtain ⟨-, -, hdone, -, hh⟩ := hi
  refine ⟨by simp [FaultFlags, c.code_ne_zero], nofun, fun hd => ?_, nofun, hh⟩
  obtain ⟨hrange, -, hlast⟩ := hdone hd
  exact ⟨hrange, nofun, hlast⟩

/-- Opening a call with halves as seeds starts within the bounds of an empty block. -/
theorem openCall_inv {s : State} {p q : Word} (hi : Inv s) (hs : s.phase ≠ .fault) (hp : p.toNat ≤ 65535)
    (hq : q.toNat ≤ 65535) : Inv (openCall p q s) := by
  obtain ⟨⟨herr, hcode⟩, -, -, -, hh⟩ := hi
  refine ⟨⟨?_, hcode⟩, fun _ => ⟨by simp, rfl, ?_⟩, nofun, nofun, hh⟩
  · simp [herr, hs]
  · simp only [WithinBounds, openCall_a, openCall_b, openCall_cnt]
    constructor <;> omega

/-- Absorbing a byte keeps the bounds: they grow with the block, and the block's end reduces both accumulators. -/
theorem absorb_bounds (x : Byte) {s : State} (hc : s.cnt.toNat ≤ 3849)
    (hb : WithinBounds s.a.toNat s.b.toNat s.cnt.toNat) :
    (absorb x s).cnt.toNat ≤ 3849 ∧
      WithinBounds (absorb x s).a.toNat (absorb x s).b.toNat (absorb x s).cnt.toNat := by
  have hnext := bounds_succ hb x.isLt
  obtain ⟨ha, hb⟩ := bounds_top hnext (by omega)
  have hv := absorb_values x s
  rw [Nat.mod_eq_of_lt (by omega : s.a.toNat + x.toNat < 2 ^ 32),
    Nat.mod_eq_of_lt (by omega : s.b.toNat + (s.a.toNat + x.toNat) < 2 ^ 32)] at hv
  split at hv
  next =>
    obtain ⟨hva, hvb, hvc⟩ := hv
    rw [hva, hvb, hvc]
    exact ⟨by omega, redNat_low_bound ha, redNat_high_bound hb⟩
  next =>
    obtain ⟨hva, hvb, hvc⟩ := hv
    rw [hva, hvb, hvc, Nat.mod_eq_of_lt (by omega)]
    exact ⟨by omega, hnext⟩

theorem absorb_inv (x : Byte) {s : State} (hi : Inv s) (hp : s.phase = .active) : Inv (absorb x s) := by
  obtain ⟨hflags, hopen, -, -, hh⟩ := hi
  obtain ⟨hcnt, hd, hb⟩ := hopen hp
  obtain ⟨hphase, -, hdone, herr, hcode, hhist, -⟩ := absorb_frame x s
  obtain ⟨hcnt', hb'⟩ := absorb_bounds x hcnt hb
  refine ⟨?_, fun _ => ⟨hcnt', hdone.trans hd, hb'⟩, ?_, ?_, ?_⟩
  · rwa [FaultFlags, herr, hcode, hphase]
  · simp [hdone, hd]
  · simp [hphase, hp]
  · rwa [hhist]

/-- Both halves of a call's result are residues (44_arithmetic_laws.md R106). -/
theorem callResult_range (s : State) : ResultRange (callResult s) := by
  rw [ResultRange, callResult_lo, callResult_hi]
  omega

/-- Closing a call publishes its result and leaves the halves of it in the accumulators. -/
theorem closeCall_inv {s : State} (hi : Inv s) (hp : s.phase = .active) : Inv (closeCall s) := by
  obtain ⟨⟨herr, hcode⟩, -, -, -, hh⟩ := hi
  refine ⟨⟨?_, hcode⟩, nofun, fun _ => ⟨callResult_range s, nofun, by simp⟩, fun _ _ => ⟨rfl, ?_, ?_⟩, ?_⟩
  · simp [herr, hp]
  · simp [finalReduce_toNat, callResult_lo]
  · simp [finalReduce_toNat, callResult_hi]
  · intro v hv
    obtain hv | hv := List.mem_append.mp hv
    · exact hh v hv
    · rw [List.mem_singleton.mp hv]
      exact callResult_range s

theorem resumeHigh_le (strap : Bool) (hi : Half) : (resumeHigh strap hi).toNat ≤ 65535 := by
  have := hi.isLt
  cases strap
  · rw [resumeHigh_false_toNat]; omega
  · simp

theorem effectOf_inv {i : Instr} {s : State} (hi : Inv s) (hp : s.phase = permittedPhase i) :
    Inv (effectOf i s) := by
  have hf : s.phase ≠ .fault := hp ▸ permittedPhase_ne_fault i
  cases i with
  | start => exact openCall_inv hi hf (by decide) (by decide)
  | resume hi' lo =>
    have := lo.isLt
    exact openCall_inv hi hf (by rw [resumeLow_toNat]; omega) (resumeHigh_le s.legacySeed hi')
  | data x => exact absorb_inv x hi hp
  | finish => exact closeCall_inv hi hp

theorem applyEvent_inv {ev : InputEvent} {s t : State} (hi : Inv s) (h : applyEvent ev s = .next t) : Inv t := by
  obtain ⟨-, rfl⟩ | ⟨_, -, -, rfl⟩ | ⟨_, c, -, -, rfl⟩ | ⟨_, i, -, -, hp, rfl⟩ := applyEvent_cases h
  · obtain ⟨-, -, -, -, hh⟩ := hi
    exact inv_of_clear_idle rfl rfl rfl rfl hh
  · exact hi
  · exact takeFault_inv c hi
  · exact effectOf_inv hi hp

/-- Settles O29: the invariant does not read the input stream, and every event keeps it. -/
theorem stepKeepsInvariant : Obligations.StepKeepsInvariant := by
  intro s t hi h
  obtain ⟨-, rfl⟩ | ⟨ev, rest, -, hev⟩ := step_cases h
  · exact hi
  · exact applyEvent_inv (s := withInput rest s) hi hev

end Sys2Proof.Machine

/-! PROOF. What a host sees: the phase off `active` and `err` (10_state.md R22), nothing of the hidden registers
(R23). -/

namespace Sys2Proof.Machine

/-- The host's table reads back the phase that `active` and `err` were made from. -/
theorem phaseSeen_of_phase (p : Phase) : phaseSeen (decide (p = .active)) (decide (p = .fault)) = some p := by
  cases p <;> rfl

/-- Settles O36: `err` is 1 exactly in `FAULT`, so the three phases show three pairs. -/
theorem outputsShowThePhase : Obligations.OutputsShowThePhase := by
  intro s ⟨⟨hfault, _⟩, _⟩
  have herr : s.err = decide (s.phase = .fault) := by
    rw [Bool.eq_iff_iff, decide_eq_true_iff, hfault]
  refine ⟨decide_eq_true_iff, ?_⟩
  rw [outputsOf, herr]
  exact phaseSeen_of_phase s.phase

/-- Two engines that are to be given the same input step on the same event. -/
theorem step_pair {s t s' t' : State} (hin : s.input = t.input) (hs : step s = .next s') (ht : step t = .next t') :
    (s' = s ∧ t' = t) ∨
    ∃ ev rest, applyEvent ev (withInput rest s) = .next s' ∧ applyEvent ev (withInput rest t) = .next t' := by
  cases hi : t.input with
  | nil =>
    rw [step_of_no_input (hin.trans hi)] at hs
    rw [step_of_no_input hi] at ht
    cases hs; cases ht
    exact .inl ⟨rfl, rfl⟩
  | cons ev rest =>
    rw [step_of_input (hin.trans hi)] at hs
    rw [step_of_input hi] at ht
    exact .inr ⟨ev, rest, hs, ht⟩

/-- The result a host may take depends on `done` and `sum` only. -/
theorem resultOf_congr {s t : State} (hd : s.done = t.done) (hs : s.sum = t.sum) : resultOf s = resultOf t := by
  simp [resultOf, hd, hs]

theorem sameToHost_withInput {s t : State} (h : SameToHost s t) (rest : List InputEvent) :
    SameToHost (withInput rest s) (withInput rest t) := by
  obtain ⟨hp, hd, he, hc, hr, hh, -, hl⟩ := h
  exact ⟨hp, hd, he, hc, hr, hh, rfl, hl⟩

/-- A reset hides `sum`, so its free values do not show. -/
theorem sameToHost_applyReset {s t : State} (h : SameToHost s t) : SameToHost (applyReset s) (applyReset t) := by
  obtain ⟨-, -, -, -, -, hh, hi, hl⟩ := h
  exact ⟨rfl, rfl, rfl, rfl, rfl, hh, hi, hl⟩

theorem sameToHost_takeFault {s t : State} (h : SameToHost s t) (c : Cause) :
    SameToHost (takeFault c s) (takeFault c t) := by
  obtain ⟨-, hd, -, -, hr, hh, hi, hl⟩ := h
  exact ⟨rfl, hd, rfl, rfl, hr, hh, hi, hl⟩

/-- Opening a call hides `sum`, and the seeds are in hidden registers. -/
theorem sameToHost_openCall {s t : State} (h : SameToHost s t) (p q p' q' : Word) :
    SameToHost (openCall p q s) (openCall p' q' t) := by
  obtain ⟨-, -, he, hc, -, hh, hi, hl⟩ := h
  exact ⟨rfl, rfl, he, hc, rfl, hh, hi, hl⟩

/-- Absorbing a byte writes hidden registers only. -/
theorem sameToHost_absorb {s t : State} (h : SameToHost s t) (x : Byte) : SameToHost (absorb x s) (absorb x t) := by
  rw [absorb_eq_update x s, absorb_eq_update x t]
  exact h

/-- Closing a call shows the call's result, and nothing else of the accumulators. -/
theorem sameToHost_closeCall {s t : State} (h : SameToHost s t) (hv : callResult s = callResult t) :
    SameToHost (closeCall s) (closeCall t) := by
  obtain ⟨-, -, he, hc, -, hh, hi, hl⟩ := h
  have hr : resultOf (closeCall s) = resultOf (closeCall t) :=
    resultOf_congr (by rw [closeCall_done, closeCall_done]) hv
  simp [SameToHost, he, hc, hr, hh, hv, hi, hl]

theorem absorb_congr {s t : State} (x : Byte) (ha : s.a = t.a) (hb : s.b = t.b) (hc : s.cnt = t.cnt) :
    (absorb x s).a = (absorb x t).a ∧ (absorb x s).b = (absorb x t).b ∧ (absorb x s).cnt = (absorb x t).cnt := by
  obtain ⟨hs, hs'⟩ | ⟨hs, hs'⟩ := absorb_cases x s <;> obtain ⟨ht, ht'⟩ | ⟨ht, ht'⟩ := absorb_cases x t
  · simp [hs', ht', ha, hb]
  · exact absurd (hc ▸ hs) ht
  · exact absurd ht (hc ▸ hs)
  · simp [hs', ht', ha, hb, hc]

theorem callResult_congr {s t : State} (ha : s.a = t.a) (hb : s.b = t.b) (hc : s.cnt = t.cnt) :
    callResult s = callResult t := by
  rw [callResult, callResult, ha, hb, hc]

/-- A command does the same to what a host sees, and leaves an open call's registers equal. -/
theorem indistinguishable_effectOf {s t : State} {i : Instr} (h : Indistinguishable s t)
    (hp : s.phase = permittedPhase i) : Indistinguishable (effectOf i s) (effectOf i t) := by
  obtain ⟨hsame, hopen⟩ := h
  cases i with
  | start => exact ⟨sameToHost_openCall hsame .., fun _ => ⟨rfl, rfl, rfl⟩⟩
  | resume hi lo =>
    have ⟨_, _, _, _, _, _, _, hl⟩ := hsame
    exact ⟨sameToHost_openCall hsame .., fun _ => ⟨rfl, congrArg (resumeHigh · hi) hl, rfl⟩⟩
  | data x =>
    obtain ⟨ha, hb, hc⟩ := hopen hp
    exact ⟨sameToHost_absorb hsame x, fun _ => absorb_congr x ha hb hc⟩
  | finish =>
    obtain ⟨ha, hb, hc⟩ := hopen hp
    exact ⟨sameToHost_closeCall hsame (callResult_congr ha hb hc), nofun⟩

theorem indistinguishable_applyEvent {s t s' t' : State} {ev : InputEvent} (h : Indistinguishable s t)
    (hs : applyEvent ev s = .next s') (ht : applyEvent ev t = .next t') : Indistinguishable s' t' := by
  have ⟨hsame, _⟩ := h
  have ⟨hphase, _⟩ := hsame
  obtain ⟨rfl, rfl⟩ | ⟨-, rfl, rfl⟩ | ⟨c, -, rfl, rfl⟩ | ⟨i, hp, rfl, rfl⟩ := applyEvent_pair hphase hs ht
  · exact ⟨sameToHost_applyReset hsame, nofun⟩
  · exact h
  · exact ⟨sameToHost_takeFault hsame c, nofun⟩
  · exact indistinguishable_effectOf h hp

/-- Settles O37: two indistinguishable engines step on the same event, and no event makes a hidden register show. -/
theorem hiddenRegistersStayHidden : Obligations.HiddenRegistersStayHidden := by
  intro s t s' t' h hs ht
  obtain ⟨hsame, hopen⟩ := h
  have ⟨_, _, _, _, _, _, hin, _⟩ := hsame
  obtain ⟨rfl, rfl⟩ | ⟨ev, rest, hs, ht⟩ := step_pair hin hs ht
  · exact ⟨hsame, hopen⟩
  · exact indistinguishable_applyEvent ⟨sameToHost_withInput hsame rest, hopen⟩ hs ht

end Sys2Proof.Machine

/-! PROOF. The two streams (20_memory.md R30): a step takes one event off the input (R40, R46), a run is the left fold
over its events, at the pins too (R32), and only a `FINISH` adds to the output history (R36). -/

namespace Sys2Proof.Machine

/-- Settles O22: an event always has a next state and leaves the input behind it alone. -/
theorem engineIsNeverStuck : Obligations.EngineIsNeverStuck := by
  intro s
  cases hin : s.input with
  | nil => exact ⟨s, step_of_no_input hin, hin⟩
  | cons ev rest =>
    obtain ⟨t, ht, hrest⟩ := applyEvent_total ev (withInput rest s)
    exact ⟨t, (step_of_input hin).trans ht, hrest⟩

/-- Running a sequence of events is applying the first and running the others. -/
theorem runEvents_cons {ev : InputEvent} {s t : State} (h : applyEvent ev s = .next t) (evs : List InputEvent) :
    runEvents (ev :: evs) s = runEvents evs t := by
  simp only [runEvents, h]

/-- Settles O23, by induction on the events: the step applies the first one and leaves the others to come. -/
theorem runIsTheLeftFold : Obligations.RunIsTheLeftFold := by
  intro evs rest s hin
  induction evs generalizing s with
  | nil =>
    obtain rfl : s.input = rest := hin
    rfl
  | cons ev evs ih =>
    -- `u` is the first event's answer; what stands behind the event does not matter to it.
    obtain ⟨u, hu, -⟩ := applyEvent_total ev s
    have hstep : step s = .next (withInput (evs ++ rest) u) :=
      (step_of_input hin).trans (applyEvent_withInput ev (evs ++ rest) hu)
    have hrun : core.run evs.length (withInput (evs ++ rest) u) = runEvents evs (withInput rest u) := ih _ rfl
    have hfold : runEvents (ev :: evs) (withInput rest s) = runEvents evs (withInput rest u) :=
      runEvents_cons (applyEvent_withInput ev rest hu) evs
    exact (run_succ hstep).trans (hrun.trans hfold.symm)

/-- An edge that makes no event is passed over, and any other applies its event (20_memory.md R32). -/
theorem clockRun_eq_runEvents (es : List PortEdge) (s : State) : clockRun es s = runEvents (edgeEvents es) s := by
  induction es generalizing s with
  | nil => rfl
  | cons e es ih =>
    cases he : edgeEvent e with
    | none =>
      have hevs : edgeEvents (e :: es) = edgeEvents es := List.filterMap_cons_none he
      simp only [clockRun, clockEdge, he, hevs, ih]
    | some ev =>
      have hevs : edgeEvents (e :: es) = ev :: edgeEvents es := List.filterMap_cons_some he
      obtain ⟨t, ht, -⟩ := applyEvent_total ev s
      rw [hevs, runEvents_cons ht, ← ih]
      simp only [clockRun, clockEdge, he, ht]

/-- Settles O27: the edges answer what the events they make answer, and those are the run. -/
theorem pinsRunTheirEvents : Obligations.PinsRunTheirEvents := by
  intro es rest s hin
  rw [clockRun_eq_runEvents]
  exact runIsTheLeftFold (edgeEvents es) rest s hin

/-- Every event that closes no call keeps the output history, a reset included (20_memory.md R36). -/
theorem applyEvent_keeps_history {ev : InputEvent} {s t : State} (h : applyEvent ev s = .next t)
    (hc : ¬ ClosesCall ev s) : t.history = s.history := by
  obtain ⟨-, rfl⟩ | ⟨_, -, -, rfl⟩ | ⟨_, c, -, -, rfl⟩ | ⟨cw, i, rfl, hd, hp, rfl⟩ := applyEvent_cases h
  · exact applyReset_history s
  · rfl
  · exact takeFault_history s c
  · obtain rfl := decode_eq_command_iff.mp hd
    cases i with
    | start => exact openCall_history s _ _
    | resume hi lo => exact openCall_history s _ _
    | data x =>
      obtain ⟨-, -, -, -, -, hhist, -⟩ := absorb_frame x s
      exact hhist
    | finish => exact absurd ⟨hp, rfl⟩ hc

/-- Settles O32: an executed `FINISH` emits the result it writes to `sum`, and every other event keeps the history. -/
theorem onlyFinishEmits : Obligations.OnlyFinishEmits := by
  refine ⟨rfl, fun s t h => ?_⟩
  obtain ⟨hin, rfl⟩ | ⟨ev, rest, hin, hev⟩ := step_cases h
  · simp [hin]
  · simp only [hin, List.head?_cons, Option.some_inj]
    split
    next hc =>
      rw [applyEvent_of_closesCall (s := withInput rest s) hc] at hev
      cases hev
      rfl
    next hc => exact applyEvent_keeps_history (s := withInput rest s) hev hc

end Sys2Proof.Machine

/-! PROOF. The decoder and the encoder (30_encoding.md R51 to R55). -/

namespace Sys2Proof

/-- Settles O1, by the decoder's value on the word of each command. -/
theorem decodeOfEncode : Obligations.DecodeOfEncode := decode_encode

/-- Settles O2: on each branch of the decoder the fields it reads make up the whole word. -/
theorem encodeOfDecode : Obligations.EncodeOfDecode := fun _ _ h => encode_of_decode h

/-- A command is determined by its word. -/
theorem encode_injective : Function.Injective encode := fun i j h =>
  Decoded.command.inj (by rw [← decode_encode i, h, decode_encode j])

/-- Settles O5, by running the decoder on the seven words. -/
theorem specWordsDecode : Obligations.SpecWordsDecode := by
  unfold Obligations.SpecWordsDecode
  decide

/-- The word numbered `2^32 * op + arg` has the fields `op` and `arg` (30_encoding.md R50). -/
theorem ofNat_word (op : Nat) {arg : Nat} (h : arg < 2 ^ 32) :
    BitVec.ofNat 34 (2 ^ 32 * op + arg) = BitVec.ofNat 2 op ++ BitVec.ofNat 32 arg := by
  apply BitVec.eq_of_toNat_eq
  rw [BitVec.toNat_append, BitVec.toNat_ofNat, BitVec.toNat_ofNat, BitVec.toNat_ofNat, Nat.mod_eq_of_lt h,
    ← Nat.shiftLeft_add_eq_or_of_lt h, Nat.shiftLeft_eq]
  omega

/-- A slice of a number that fits its width, as a quotient. -/
theorem extractLsb'_ofNat {w v : Nat} (h : v < 2 ^ w) (start len : Nat) :
    (BitVec.ofNat w v).extractLsb' start len = BitVec.ofNat len (v / 2 ^ start) := by
  apply BitVec.eq_of_toNat_eq
  rw [BitVec.extractLsb'_toNat, BitVec.toNat_ofNat, BitVec.toNat_ofNat, Nat.mod_eq_of_lt h,
    Nat.shiftRight_eq_div_pow]

theorem hiOf_ofNat {v : Nat} (h : v < 2 ^ 32) : hiOf (BitVec.ofNat 32 v) = BitVec.ofNat 16 (v / 2 ^ 16) :=
  extractLsb'_ofNat h 16 16

theorem loOf_ofNat {v : Nat} (h : v < 2 ^ 32) : loOf (BitVec.ofNat 32 v) = BitVec.ofNat 16 v := by
  rw [loOf, extractLsb'_ofNat h, Nat.pow_zero, Nat.div_one]

theorem rsvdOf_ofNat {v : Nat} (h : v < 2 ^ 32) : rsvdOf (BitVec.ofNat 32 v) = BitVec.ofNat 24 (v / 2 ^ 8) :=
  extractLsb'_ofNat h 8 24

theorem byteOf_ofNat {v : Nat} (h : v < 2 ^ 32) : byteOf (BitVec.ofNat 32 v) = BitVec.ofNat 8 v := by
  rw [byteOf, extractLsb'_ofNat h, Nat.pow_zero, Nat.div_one]

/-- A number that fits its width is 0 there only if it is 0. -/
theorem ofNat_eq_zero_iff {n v : Nat} (h : v < 2 ^ n) : BitVec.ofNat n v = 0#n ↔ v = 0 := by
  rw [← BitVec.toNat_inj, BitVec.toNat_ofNat, Nat.mod_eq_of_lt h, BitVec.toNat_ofNat, Nat.zero_mod]

/-- The decoder's four lines over the numbers `op` and `arg` (30_encoding.md R54). -/
theorem decode_ofNat {op arg : Nat} (hop : op < 4) (harg : arg < 2 ^ 32) :
    decode (BitVec.ofNat 34 (2 ^ 32 * op + arg)) =
      if op = 0 then (if arg = 0 then .command .start else .fault .illegalArg)
      else if op = 1 then .command (.resume (BitVec.ofNat 16 (arg / 2 ^ 16)) (BitVec.ofNat 16 (arg % 2 ^ 16)))
      else if op = 2 then (if arg / 2 ^ 8 = 0 then .command (.data (BitVec.ofNat 8 arg)) else .fault .badByte)
      else (if arg = 0 then .command .finish else .fault .illegalArg) := by
  have hlo : BitVec.ofNat 16 (arg % 2 ^ 16) = BitVec.ofNat 16 arg := by
    apply BitVec.eq_of_toNat_eq
    simp only [BitVec.toNat_ofNat, Nat.mod_mod]
  have hrsvd : arg / 2 ^ 8 < 2 ^ 24 := by omega
  rw [ofNat_word op harg, decode_append, hiOf_ofNat harg, loOf_ofNat harg, rsvdOf_ofNat harg, byteOf_ofNat harg, hlo]
  simp only [ofNat_eq_zero_iff harg, ofNat_eq_zero_iff hrsvd]
  match op, hop with
  | 0, _ => rfl
  | 1, _ => rfl
  | 2, _ => rfl
  | 3, _ => rfl

/-- Settles O3: the decoder's lines read off the fields' numbers; a word accepted in `FAULT` is discarded. -/
theorem decodeByFieldValues : Obligations.DecodeByFieldValues :=
  ⟨fun _ _ hop harg => decode_ofNat hop harg,
    fun cw _ hp => Machine.answers_readable (Machine.acceptWord_discard hp cw)⟩

end Sys2Proof

/-! PROOF. The match and mask table (30_encoding.md R52): the words that match a row are the encodings of the commands
with its mnemonic. -/

namespace Sys2Proof

/-- The mask of `START` and `FINISH` keeps the whole word. -/
theorem mask_all (cw : CommandWord) : cw &&& 0x3FFFFFFFF = cw := BitVec.and_allOnes

theorem encode_start : encode .start = 0x000000000 := rfl

theorem encode_finish : encode .finish = 0x300000000 := rfl

/-- The mask of `RESUME` keeps `op` and leaves all of `arg` free. -/
theorem mask_resume_iff (cw : CommandWord) :
    cw &&& 0x300000000 = 0x100000000 ↔ ∃ hi lo, cw = encode (.resume hi lo) := by
  have hmask : (0x300000000 : CommandWord) = BitVec.allOnes 2 ++ 0#32 := rfl
  have hmatch : (0x100000000 : CommandWord) = 0b01#2 ++ 0#32 := rfl
  constructor
  · intro h
    rw [word_eq_fields cw, hmask, hmatch, BitVec.and_append, word_append_inj, BitVec.and_allOnes] at h
    refine ⟨hiOf (argOf cw), loOf (argOf cw), ?_⟩
    rw [encode, ← arg_eq_halves, ← h.1]
    exact word_eq_fields cw
  · rintro ⟨hi, lo, rfl⟩
    rw [encode, hmask, hmatch, BitVec.and_append, BitVec.and_allOnes, BitVec.and_zero]

/-- The mask of `DATA` keeps `op` and the reserved bits and leaves the byte free. -/
theorem mask_data_iff (cw : CommandWord) : cw &&& 0x3FFFFFF00 = 0x200000000 ↔ ∃ x, cw = encode (.data x) := by
  have hmask : (0x3FFFFFF00 : CommandWord) = BitVec.allOnes 2 ++ (BitVec.allOnes 24 ++ 0#8) := rfl
  have hmatch : (0x200000000 : CommandWord) = 0b10#2 ++ (0#24 ++ 0#8) := rfl
  constructor
  · intro h
    rw [word_eq_fields cw, arg_eq_rsvd_byte (argOf cw), hmask, hmatch, BitVec.and_append, word_append_inj,
      BitVec.and_append, BitVec.and_allOnes, BitVec.and_allOnes] at h
    obtain ⟨hop, harg⟩ := h
    have hrsvd : rsvdOf (argOf cw) = 0#24 := by simpa only [rsvdOf_append] using congrArg rsvdOf harg
    refine ⟨byteOf (argOf cw), ?_⟩
    rw [encode, ← hrsvd, ← arg_eq_rsvd_byte, ← hop]
    exact word_eq_fields cw
  · rintro ⟨x, rfl⟩
    rw [encode, hmask, hmatch, BitVec.and_append, BitVec.and_append, BitVec.and_allOnes, BitVec.and_allOnes,
      BitVec.and_zero]

/-- Some command has a property: one of the four formats does. -/
theorem exists_instr_iff {p : Instr → Prop} :
    (∃ i, p i) ↔ p .start ∨ (∃ hi lo, p (.resume hi lo)) ∨ (∃ x, p (.data x)) ∨ p .finish := by
  constructor
  · rintro ⟨_ | ⟨hi, lo⟩ | x | _, h⟩
    · exact .inl h
    · exact .inr (.inl ⟨hi, lo, h⟩)
    · exact .inr (.inr (.inl ⟨x, h⟩))
    · exact .inr (.inr (.inr h))
  · rintro (h | ⟨hi, lo, h⟩ | ⟨x, h⟩ | h) <;> exact ⟨_, h⟩

/-- Settles O4: row by row, the words that match are the encodings of the row's commands, and those are the words that
decode to them. -/
theorem commandsAreTheirPatterns : Obligations.CommandsAreTheirPatterns := by
  intro cw m
  simp only [patternTable, List.exists_mem_cons_iff, List.not_mem_nil, false_and, exists_false, or_false,
    mask_all, mask_resume_iff, mask_data_iff, decode_eq_command_iff, exists_instr_iff, encode_start, encode_finish,
    mnemonicOf, exists_and_right, and_comm (a := _ = m)]

end Sys2Proof

/-! PROOF. The assembler's lines (30_encoding.md R58, R60). -/

namespace Sys2Proof.Machine

/-- `RESUME v` opens a call that resumes from `v` (20_memory.md R35). -/
theorem resumeWord_eq_opening {v : Nat} (h : v ≤ 0xFFFFFFFF) :
    resumeWord v = encode (openingInstr (some (BitVec.ofNat 32 v))) := by
  rw [openingInstr, encode, ← arg_eq_halves]
  exact ofNat_word 1 (by omega)

/-- `RESUME v` carries the halves of `v` (30_encoding.md R51, R58). -/
theorem resumeWord_eq_encode {v : Nat} (h : v ≤ 0xFFFFFFFF) :
    resumeWord v = encode (.resume (BitVec.ofNat 16 (v / 65536)) (BitVec.ofNat 16 v)) := by
  rw [resumeWord_eq_opening h, openingInstr, hiOf_ofNat (by omega), loOf_ofNat (by omega)]
  rfl

/-- `DATA x` carries the byte `x`: that is what its word decodes to (30_encoding.md R54, R58). -/
theorem dataWord_eq_encode {x : Nat} (h : x ≤ 0xFF) : dataWord x = encode (.data (BitVec.ofNat 8 x)) := by
  have hd : decode (dataWord x) = .command (.data (BitVec.ofNat 8 x)) :=
    (decode_ofNat (op := 2) (by omega) (by omega)).trans (by simp; omega)
  exact (encode_of_decode hd).symm

/-- Settles O56: the assembler accepts the operands in range, and the table's words are the encodings. -/
theorem assemblerLinesEncode : Obligations.AssemblerLinesEncode := by
  refine ⟨rfl, rfl, fun v => ?_, fun x => ?_, fun w => ?_⟩
  · simp only [assembleLine, AsmLine.wf, resumeOperandOk, decide_eq_true_eq, lineWords]
    split
    next h => rw [resumeWord_eq_encode h]
    next => rfl
  · simp only [assembleLine, AsmLine.wf, byteOperandOk, decide_eq_true_eq, lineWords]
    split
    next h => rw [dataWord_eq_encode h]
    next => rfl
  · simp only [assembleLine, AsmLine.wf, rawWordOk, decide_eq_true_eq, lineWords]

/-- Bytes in range are `DATA` commands. -/
theorem map_dataWord {xs : List Nat} (h : xs.all byteOperandOk = true) :
    xs.map dataWord = (xs.map (BitVec.ofNat 8)).map (fun x => encode (.data x)) := by
  rw [List.map_map]
  refine List.map_congr_left fun x hx => dataWord_eq_encode ?_
  exact of_decide_eq_true (List.all_eq_true.mp h x hx)

/-- Settles O57: a well-formed `COMPUTE` has its operands in range, so its words are the opening command, the bytes and
`FINISH`. -/
theorem computeExpandsToACall : Obligations.ComputeExpandsToACall := by
  intro xs v hwf
  rw [assembleLine, if_pos hwf, Option.some_inj]
  obtain ⟨hxs, hv⟩ := Bool.and_eq_true_iff.mp hwf
  cases v with
  | none =>
    rw [lineWords, map_dataWord hxs]
    rfl
  | some v =>
    have hv : v ≤ 0xFFFFFFFF := of_decide_eq_true hv
    rw [lineWords, map_dataWord hxs, resumeWord_eq_opening hv]
    rfl

end Sys2Proof.Machine

/-! PROOF. The call grammar (30_encoding.md R61): a run over words stays outside `FAULT` exactly as long as each word is
a command permitted in the phase that the words before it have led to. -/

namespace Sys2Proof.Machine

/-- The phase a command leads to from the one that permits it (60_exceptions.md R118). -/
def phaseAfter : Instr → Phase
  | .finish => .idle
  | _ => .active

theorem effectOf_phase {i : Instr} {s : State} (h : s.phase = permittedPhase i) :
    (effectOf i s).phase = phaseAfter i := by
  cases i with
  | start => rfl
  | resume hi lo => rfl
  | data x =>
    obtain ⟨hp, -⟩ := absorb_frame x s
    exact hp.trans h
  | finish => rfl

/-- A word that is no command permitted in the engine's phase leads to `FAULT`, or is discarded there. -/
theorem applyEvent_not_permitted {cw : CommandWord} {s t : State}
    (hn : ¬ ∃ i, cw = encode i ∧ s.phase = permittedPhase i) (h : applyEvent (.word cw) s = .next t) :
    t.phase = .fault := by
  obtain ⟨hev, -⟩ | ⟨_, -, hp, rfl⟩ | ⟨_, c, -, -, rfl⟩ | ⟨_, i, hev, hd, hp, -⟩ := applyEvent_cases h
  · cases hev
  · exact hp
  · rfl
  · cases hev
    exact absurd ⟨i, decode_eq_command_iff.mp hd, hp⟩ hn

/-- What may follow an opening command: bytes, and then nothing more, or a `FINISH` and whatever the grammar admits
(30_encoding.md R61). -/
def InOpenCall (ws : List CommandWord) : Prop :=
  ∃ (bytes : List Byte) (tail : List CommandWord), ws = bytes.map (fun x => encode (.data x)) ++ tail ∧
    (tail = [] ∨ ∃ rest, tail = encode .finish :: rest ∧ inGrammar rest)

/-- The words that may still come in a phase. -/
def MayFollow : Phase → List CommandWord → Prop
  | .idle, ws => inGrammar ws
  | .active, ws => InOpenCall ws
  | .fault, _ => False

theorem inGrammar_nil : inGrammar [] := ⟨[], none, rfl⟩

theorem inOpenCall_nil : InOpenCall [] := ⟨[], [], rfl, .inl rfl⟩

/-- A nonempty sequence of the grammar is an opening command and what may follow it. -/
theorem inGrammar_cons {cw : CommandWord} {ws : List CommandWord} :
    inGrammar (cw :: ws) ↔ ∃ resume, cw = encode (openingInstr resume) ∧ InOpenCall ws := by
  constructor
  · rintro ⟨_ | ⟨c, calls⟩, last, h⟩
    · cases last with
      | none => cases h
      | some c =>
        obtain ⟨rfl, rfl⟩ := List.cons_eq_cons.mp h
        exact ⟨c.resume, rfl, c.bytes, [], by simp, .inl rfl⟩
    · simp only [List.flatMap_cons, callWords, unfinishedWords, List.cons_append, List.append_assoc, List.nil_append,
        List.cons.injEq] at h
      obtain ⟨rfl, rfl⟩ := h
      exact ⟨c.resume, rfl, c.bytes, _, rfl, .inr ⟨_, rfl, calls, last, rfl⟩⟩
  · rintro ⟨resume, rfl, bytes, tail, rfl, rfl | ⟨rest, rfl, calls, last, rfl⟩⟩
    · exact ⟨[], some ⟨resume, bytes⟩, by simp [unfinishedWords]⟩
    · exact ⟨⟨resume, bytes⟩ :: calls, last, by simp [callWords, unfinishedWords]⟩

/-- A nonempty sequence inside a call is a byte and what may follow it there, or a `FINISH` and a sequence of the
grammar. -/
theorem inOpenCall_cons {cw : CommandWord} {ws : List CommandWord} :
    InOpenCall (cw :: ws) ↔ (∃ x, cw = encode (.data x) ∧ InOpenCall ws) ∨ (cw = encode .finish ∧ inGrammar ws) := by
  constructor
  · rintro ⟨_ | ⟨x, bytes⟩, tail, h, ht⟩
    · obtain rfl : cw :: ws = tail := h
      obtain h0 | ⟨rest, hrest, hg⟩ := ht
      · cases h0
      · cases hrest
        exact .inr ⟨rfl, hg⟩
    · obtain ⟨rfl, rfl⟩ := List.cons_eq_cons.mp h
      exact .inl ⟨x, rfl, bytes, tail, rfl, ht⟩
  · rintro (⟨x, rfl, bytes, tail, rfl, ht⟩ | ⟨rfl, hg⟩)
    · exact ⟨x :: bytes, tail, rfl, ht⟩
    · exact ⟨[], _, rfl, .inr ⟨ws, rfl, hg⟩⟩

/-- The opening commands are the ones permitted in `IDLE`. -/
theorem permittedPhase_eq_idle_iff {i : Instr} : permittedPhase i = .idle ↔ ∃ resume, i = openingInstr resume := by
  constructor
  · intro h
    cases i with
    | start => exact ⟨none, rfl⟩
    | resume hi lo => exact ⟨some (hi ++ lo), by simp [openingInstr]⟩
    | data x => cases h
    | finish => cases h
  · rintro ⟨_ | v, rfl⟩ <;> rfl

theorem phaseAfter_opening (resume : Option Word) : phaseAfter (openingInstr resume) = .active := by
  cases resume <;> rfl

theorem mayFollow_nil {p : Phase} : MayFollow p [] ↔ p ≠ .fault := by
  cases p with
  | idle => simp [MayFollow, inGrammar_nil]
  | active => simp [MayFollow, inOpenCall_nil]
  | fault => simp [MayFollow]

/-- The grammar word by word: the first one is a permitted command, and the others may follow in the phase it leads
to. -/
theorem mayFollow_cons {p : Phase} {cw : CommandWord} {ws : List CommandWord} :
    MayFollow p (cw :: ws) ↔ ∃ i, (cw = encode i ∧ p = permittedPhase i) ∧ MayFollow (phaseAfter i) ws := by
  cases p with
  | idle =>
    simp only [MayFollow, inGrammar_cons]
    constructor
    · rintro ⟨resume, rfl, h⟩
      refine ⟨_, ⟨rfl, (permittedPhase_eq_idle_iff.mpr ⟨resume, rfl⟩).symm⟩, ?_⟩
      rwa [phaseAfter_opening]
    · rintro ⟨i, ⟨rfl, hp⟩, h⟩
      obtain ⟨resume, rfl⟩ := permittedPhase_eq_idle_iff.mp hp.symm
      rw [phaseAfter_opening] at h
      exact ⟨resume, rfl, h⟩
  | active =>
    -- Of the four commands the two that `ACTIVE` permits are left: the two sides of `inOpenCall_cons`.
    simp [MayFollow, inOpenCall_cons, exists_instr_iff, permittedPhase, phaseAfter]
  | fault =>
    simp only [MayFollow, (permittedPhase_ne_fault _).symm, and_false, false_and, exists_false]

/-- A run over words ends outside `FAULT` exactly when they may follow in the phase it starts in. -/
theorem runEvents_words_not_fault_iff (ws : List CommandWord) (s : State) :
    ∃ t, runEvents (ws.map .word) s = .next t ∧ (t.phase ≠ .fault ↔ MayFollow s.phase ws) := by
  induction ws generalizing s with
  | nil => exact ⟨s, rfl, mayFollow_nil.symm⟩
  | cons cw ws ih =>
    obtain ⟨u, hu, -⟩ := applyEvent_total (.word cw) s
    obtain ⟨t, ht, hiff⟩ := ih u
    refine ⟨t, (runEvents_cons hu _).trans ht, hiff.trans ?_⟩
    rw [mayFollow_cons]
    by_cases hperm : ∃ i, cw = encode i ∧ s.phase = permittedPhase i
    · obtain ⟨i, rfl, hp⟩ := hperm
      rw [applyEvent_permitted hp] at hu
      cases hu
      rw [effectOf_phase hp]
      constructor
      · exact fun h => ⟨i, ⟨rfl, hp⟩, h⟩
      · rintro ⟨j, ⟨hj, -⟩, h⟩
        rwa [encode_injective hj]
    · rw [applyEvent_not_permitted hperm hu]
      exact ⟨False.elim, fun ⟨i, hi, _⟩ => hperm ⟨i, hi⟩⟩

/-- Settles O55: the run is the fold over the words, and from `IDLE` those that may follow are the grammar's. -/
theorem grammarIsFaultFree : Obligations.GrammarIsFaultFree := by
  intro ws s hp hin
  obtain ⟨t, ht, hiff⟩ := runEvents_words_not_fault_iff ws (withInput [] s)
  have hrun : core.run (ws.map InputEvent.word).length s = runEvents (ws.map .word) (withInput [] s) :=
    runIsTheLeftFold (ws.map .word) [] s (by rwa [List.append_nil])
  rw [List.length_map] at hrun
  refine ⟨t, hrun.trans ht, ?_⟩
  rwa [withInput_phase, hp] at hiff

end Sys2Proof.Machine

/-! PROOF. Opening a call (40_session_control.md R65, R67 to R69): `START` and `RESUME` as commands, and as words with
any operand field. -/

namespace Sys2Proof.Machine

/-- Taking a fault writes three registers (60_exceptions.md R120). -/
theorem takeFault_eq_faulted (c : Cause) (s : State) : takeFault c s = Faulted c.code s := rfl

theorem exec_permitted {i : Instr} {s : State} (hp : s.phase = permittedPhase i) :
    exec i s = .next (effectOf i s) :=
  (acceptWord_command (decode_encode i) s).symm.trans (applyEvent_permitted hp)

/-- An opening command in each phase: discarded, `SEQ_ERR`, or its effect (60_exceptions.md R118, R121). -/
theorem exec_permitted_idle {i : Instr} (hi : permittedPhase i = .idle) (s : State) :
    exec i s = .next
      (if s.phase = .fault then s else if s.phase = .active then Faulted 3#2 s else effectOf i s) := by
  cases hp : s.phase with
  | idle => exact exec_permitted (hp.trans hi.symm)
  | active =>
    rw [exec_eq, inPhase_other (by rw [hp, hi]; decide) (by rw [hp]; decide)]
    rfl
  | fault =>
    rw [exec_eq, inPhase_fault hp]
    rfl

theorem resumeLow_eq_ofNat (lo : Half) : resumeLow lo = BitVec.ofNat 32 lo.toNat :=
  (BitVec.ofNat_toNat 32 lo).symm

theorem resumeHigh_eq_ofNat (strap : Bool) (hi : Half) :
    resumeHigh strap hi = if strap then 0#32 else BitVec.ofNat 32 hi.toNat := by
  rw [resumeHigh, zext32, BitVec.ofNat_toNat]

/-- ANDing with `0xFFFF` keeps the low 16 bits. -/
theorem and_0xFFFF_toNat (v : Word) : (v &&& 0xFFFF#32).toNat = v.toNat % 65536 := by
  rw [BitVec.toNat_and]
  exact Nat.and_two_pow_sub_one_eq_mod v.toNat 16

/-- The low seed is `arg & 0xFFFF` (40_session_control.md R67). -/
theorem resumeLow_loOf (arg : Word) : resumeLow (loOf arg) = arg &&& 0xFFFF#32 := by
  apply BitVec.eq_of_toNat_eq
  rw [resumeLow_toNat, loOf_toNat, and_0xFFFF_toNat]

/-- The high seed is `(arg >> 16) & 0xFFFF`, or `arg & (0xFFFF >> 16)` with the strap (40_session_control.md R67,
R69). -/
theorem resumeHigh_hiOf (strap : Bool) (arg : Word) :
    resumeHigh strap (hiOf arg) =
      if strap then arg &&& (0xFFFF#32 >>> 16) else (arg >>> 16) &&& 0xFFFF#32 := by
  cases strap with
  | true => exact BitVec.and_zero.symm
  | false =>
    apply BitVec.eq_of_toNat_eq
    have hlt := (hiOf arg).isLt
    rw [hiOf_toNat] at hlt
    rw [resumeHigh_false_toNat, hiOf_toNat, if_neg Bool.false_ne_true, and_0xFFFF_toNat, BitVec.toNat_ushiftRight,
      Nat.shiftRight_eq_div_pow, Nat.mod_eq_of_lt hlt]

/-- Settles O6: `IDLE` permits `START`, whose effect is the five writes. -/
theorem startCompletes : Obligations.StartCompletes :=
  fun _ hp => answers_readable (exec_permitted hp)

/-- Settles O7: `IDLE` permits `RESUME`, whose effect is the five writes with the zero-extended halves as seeds. -/
theorem resumeCompletes : Obligations.ResumeCompletes := by
  intro s hi lo hp
  rw [← resumeLow_eq_ofNat, ← resumeHigh_eq_ofNat]
  exact answers_readable (exec_permitted hp)

/-- The halves 0 and 1 seed a call as `START` does, with either strap (40_session_control.md R68). -/
theorem effectOf_resume_one (s : State) : effectOf (.resume 0#16 1#16) s = effectOf .start s := by
  have hlow : resumeLow 1#16 = Config.initA := rfl
  have hhigh : resumeHigh s.legacySeed 0#16 = Config.initB := by cases s.legacySeed <;> rfl
  change openCall (resumeLow 1#16) (resumeHigh s.legacySeed 0#16) s = openCall Config.initA Config.initB s
  rw [hlow, hhigh]

/-- Settles O44: one phase permits both commands, and their effects are the same. -/
theorem resumeOneIsStart : Obligations.ResumeOneIsStart := by
  intro s
  rw [exec_permitted_idle rfl, exec_permitted_idle rfl, effectOf_resume_one]

/-- Settles O10: the discard in `FAULT` comes before the decode check on `arg`, and that before the phase check. -/
theorem startWordOutcomes : Obligations.StartWordOutcomes := by
  intro s arg
  apply answers_readable
  by_cases hf : s.phase = .fault
  · rw [if_pos hf, acceptWord_discard hf]
  rw [if_neg hf]
  by_cases harg : arg = 0#32
  · have hd : decode (0b00#2 ++ arg) = .command .start := by rw [decode_append, if_pos rfl, if_pos harg]
    rw [if_neg (not_not_intro harg), acceptWord_command hd, exec_permitted_idle rfl, if_neg hf]
    rfl
  · have hd : decode (0b00#2 ++ arg) = .fault .illegalArg := by rw [decode_append, if_pos rfl, if_neg harg]
    rw [if_pos harg, acceptWord_fault hd hf, takeFault_eq_faulted]
    rfl

/-- Settles O11: every operand field of `RESUME` decodes, so only the phase decides; its halves are the masked
seeds. -/
theorem resumeWordOutcomes : Obligations.ResumeWordOutcomes := by
  intro s arg
  have hd : decode (0b01#2 ++ arg) = .command (.resume (hiOf arg) (loOf arg)) := decode_append 0b01#2 arg
  rw [← resumeLow_loOf, ← resumeHigh_hiOf]
  apply answers_readable
  rw [acceptWord_command hd, exec_permitted_idle rfl]
  rfl

end Sys2Proof.Machine

/-! PROOF. `DATA` (41_accumulate.md): the sums of an open call are exact under the invariant (R75), and the points at
which an engine reduces them do not show (R78). -/

namespace Sys2Proof.Machine

/-- Inside an open call both additions stay below `2^32` (44_arithmetic_laws.md R100). -/
theorem noWrap_of_inv (x : Byte) {s : State} (hi : Inv s) (hp : s.phase = .active) : NoWrap x s := by
  obtain ⟨-, hopen, -⟩ := hi
  obtain ⟨hcnt, -, hbounds⟩ := hopen hp
  obtain ⟨ha, hb⟩ := bounds_top (bounds_succ hbounds x.isLt) (by omega)
  constructor <;> omega

/-- What absorbing a byte writes under the invariant: the values of `absorb_values` without a remainder. -/
theorem absorb_exact (x : Byte) {s : State} (hi : Inv s) (hp : s.phase = .active) :
    if s.cnt.toNat + 1 = 3850 then
      (absorb x s).a.toNat = redNat (s.a.toNat + x.toNat) ∧
      (absorb x s).b.toNat = redNat (s.b.toNat + (s.a.toNat + x.toNat)) ∧ (absorb x s).cnt.toNat = 0
    else
      (absorb x s).a.toNat = s.a.toNat + x.toNat ∧
      (absorb x s).b.toNat = s.b.toNat + (s.a.toNat + x.toNat) ∧ (absorb x s).cnt.toNat = s.cnt.toNat + 1 := by
  have ⟨_, hopen, _⟩ := hi
  obtain ⟨hcnt, -⟩ := hopen hp
  obtain ⟨ha, hb⟩ := noWrap_of_inv x hi hp
  have hc : s.cnt.toNat + 1 < 2 ^ 12 := by omega
  have hv := absorb_values x s
  rwa [Nat.mod_eq_of_lt ha, Nat.mod_eq_of_lt hb, Nat.mod_eq_of_lt hc] at hv

/-- Whether or not the byte ends the block, the accumulators take the residues of the sums (41_accumulate.md R78). -/
theorem absorb_residues (x : Byte) {s : State} (hi : Inv s) (hp : s.phase = .active) :
    (absorb x s).a.toNat % 65521 = (s.a.toNat + x.toNat) % 65521 ∧
      (absorb x s).b.toNat % 65521 = (s.b.toNat + (s.a.toNat + x.toNat)) % 65521 := by
  have hv := absorb_exact x hi hp
  split at hv <;> obtain ⟨ha, hb, -⟩ := hv <;> rw [ha, hb]
  · exact ⟨redNat_mod _, redNat_mod _⟩
  · exact ⟨rfl, rfl⟩

/-- A call's result depends on the residues of the accumulators only. -/
theorem callResult_eq_of_residues {s t : State} (ha : s.a.toNat % 65521 = t.a.toNat % 65521)
    (hb : s.b.toNat % 65521 = t.b.toNat % 65521) : callResult s = callResult t := by
  apply BitVec.eq_of_toNat_eq
  rw [callResult_toNat, callResult_toNat, ha, hb]

/-- A command does the same to what a host sees, and keeps the residues of an open call equal. -/
theorem sameResidues_effectOf {s t : State} {i : Instr} (his : Inv s) (hit : Inv t) (h : SameResidues s t)
    (hp : s.phase = permittedPhase i) : SameResidues (effectOf i s) (effectOf i t) := by
  obtain ⟨hsame, hopen⟩ := h
  have ⟨hphase, _, _, _, _, _, _, hstrap⟩ := hsame
  cases i with
  | start => exact ⟨sameToHost_openCall hsame .., fun _ => ⟨rfl, rfl⟩⟩
  | resume hi lo => exact ⟨sameToHost_openCall hsame .., fun _ => ⟨rfl, by simp [effectOf, hstrap]⟩⟩
  | data x =>
    obtain ⟨ha, hb⟩ := hopen hp
    obtain ⟨hsa, hsb⟩ := absorb_residues x his hp
    obtain ⟨hta, htb⟩ := absorb_residues x hit (hphase ▸ hp)
    refine ⟨sameToHost_absorb hsame x, fun _ => ?_⟩
    change (absorb x s).a.toNat % 65521 = (absorb x t).a.toNat % 65521 ∧
      (absorb x s).b.toNat % 65521 = (absorb x t).b.toNat % 65521
    constructor <;> omega
  | finish =>
    obtain ⟨ha, hb⟩ := hopen hp
    exact ⟨sameToHost_closeCall hsame (callResult_eq_of_residues ha hb), nofun⟩

theorem sameResidues_applyEvent {s t s' t' : State} {ev : InputEvent} (his : Inv s) (hit : Inv t)
    (h : SameResidues s t) (hs : applyEvent ev s = .next s') (ht : applyEvent ev t = .next t') :
    SameResidues s' t' := by
  have ⟨hsame, _⟩ := h
  have ⟨hphase, _⟩ := hsame
  obtain ⟨rfl, rfl⟩ | ⟨-, rfl, rfl⟩ | ⟨c, -, rfl, rfl⟩ | ⟨i, hp, rfl, rfl⟩ := applyEvent_pair hphase hs ht
  · exact ⟨sameToHost_applyReset hsame, nofun⟩
  · exact h
  · exact ⟨sameToHost_takeFault hsame c, nofun⟩
  · exact sameResidues_effectOf his hit h hp

/-- Settles O38: two engines with equal residues step on the same event; the sums of a `DATA` are exact, a reduction
keeps their residues, and a `FINISH` publishes nothing but residues. -/
theorem reductionScheduleIsInvisible : Obligations.ReductionScheduleIsInvisible := by
  intro s t s' t' his hit h hs ht
  obtain ⟨hsame, hopen⟩ := h
  have ⟨_, _, _, _, _, _, hin, _⟩ := hsame
  obtain ⟨rfl, rfl⟩ | ⟨ev, rest, hs, ht⟩ := step_pair hin hs ht
  · exact ⟨hsame, hopen⟩
  · exact sameResidues_applyEvent (s := withInput rest s) (t := withInput rest t) his hit
      ⟨sameToHost_withInput hsame rest, hopen⟩ hs ht

/-- Settles O8: `ACTIVE` permits `DATA`, whose effect is to absorb the byte. -/
theorem dataCompletes : Obligations.DataCompletes := fun s x hp =>
  ⟨absorb x s, exec_permitted (i := .data x) hp, sameReadable_of_eq (absorb_eq_update x s), absorb_values x s⟩

/-- A `DATA` word decodes exactly when its operand is a byte (30_encoding.md R54, R55). -/
theorem decode_data_word (arg : Word) :
    decode (0b10#2 ++ arg) =
      if arg.toNat ≤ 0xFF then .command (.data (BitVec.ofNat 8 arg.toNat)) else .fault .badByte := by
  have hdec := decode_ofNat (op := 2) (by decide) arg.isLt
  rw [ofNat_word 2 arg.isLt, BitVec.ofNat_toNat 32, BitVec.setWidth_eq] at hdec
  have hrsvd : arg.toNat / 2 ^ 8 = 0 ↔ arg.toNat ≤ 0xFF := by omega
  simpa only [OfNat.ofNat_ne_zero, OfNat.ofNat_ne_one, if_false, if_true, hrsvd] using hdec

/-- A `DATA` word in each phase: discarded, `BAD_BYTE`, `SEQ_ERR`, or its byte is absorbed (60_exceptions.md R119). -/
theorem acceptWord_data (s : State) (arg : Word) :
    acceptWord (0b10#2 ++ arg) s = .next
      (if s.phase = .fault then s
      else if 0xFF < arg.toNat then Faulted 2#2 s
      else if s.phase = .idle then Faulted 3#2 s
      else absorb (BitVec.ofNat 8 arg.toNat) s) := by
  by_cases hf : s.phase = .fault
  · rw [if_pos hf, acceptWord_discard hf]
  rw [if_neg hf]
  by_cases harg : 0xFF < arg.toNat
  · have hd : decode (0b10#2 ++ arg) = .fault .badByte := by
      rw [decode_data_word, if_neg (Nat.not_le.mpr harg)]
    rw [if_pos harg, acceptWord_fault hd hf]
    rfl
  · have hd : decode (0b10#2 ++ arg) = .command (.data (BitVec.ofNat 8 arg.toNat)) := by
      rw [decode_data_word, if_pos (Nat.not_lt.mp harg)]
    rw [if_neg harg, acceptWord_command hd]
    cases hp : s.phase with
    | idle =>
      rw [exec_eq, inPhase_other (by rw [hp]; nofun) hf]
      rfl
    | active => exact exec_permitted hp
    | fault => exact absurd hp hf

/-- Settles O12: the discard in `FAULT` comes before the decode check on `arg`, and that before the phase check; an
absorbed byte is `arg` itself, and its sums are exact. -/
theorem dataWordOutcomes : Obligations.DataWordOutcomes := by
  intro s arg hi
  refine ⟨_, acceptWord_data s arg, fun hp => ?_, fun hp harg => ?_, fun hp harg => ?_, fun hp harg => ?_⟩
  · rw [if_pos hp]
    exact sameReadable_of_eq rfl
  · rw [if_neg hp, if_pos harg]
    exact sameReadable_of_eq rfl
  · rw [if_neg (by rw [hp]; decide), if_neg (Nat.not_lt.mpr harg), if_pos hp]
    exact sameReadable_of_eq rfl
  · rw [if_neg (by rw [hp]; decide), if_neg (Nat.not_lt.mpr harg), if_neg (by rw [hp]; decide)]
    have hx : (BitVec.ofNat 8 arg.toNat).toNat = arg.toNat := Nat.mod_eq_of_lt (Nat.lt_succ_of_le harg)
    have hv := absorb_exact (BitVec.ofNat 8 arg.toNat) hi hp
    rw [hx] at hv
    exact ⟨sameReadable_of_eq (absorb_eq_update _ s), hv⟩

end Sys2Proof.Machine

/-! PROOF. `FINISH` (42_finalize.md): the residues it leaves and publishes (R85), as a command, and as a word with any
operand field. -/

namespace Sys2Proof.Machine

/-- The final reduction step by step: the shift-reduction of a block that is not empty, then the residue
(42_finalize.md R85, steps 1 and 2). -/
theorem finalReduce_steps (c : Count) (v : Word) :
    (finalReduce c v).toNat = (if 0 < c.toNat then redNat v.toNat else v.toNat) % 65521 := by
  rw [finalReduce_toNat]
  split
  · exact (redNat_mod v.toNat).symm
  · rfl

/-- The published result is the two accumulators that `FINISH` leaves, packed (42_finalize.md R85, step 3). -/
theorem closeCall_sum_packed (s : State) :
    (closeCall s).sum.toNat = 65536 * (closeCall s).b.toNat + (closeCall s).a.toNat := by
  rw [closeCall_sum, closeCall_a, closeCall_b, callResult_toNat, finalReduce_toNat, finalReduce_toNat]

/-- Settles O9: `ACTIVE` permits `FINISH`, whose effect is to close the call. -/
theorem finishCompletes : Obligations.FinishCompletes := fun s hp =>
  ⟨closeCall s, exec_permitted (i := .finish) hp, rfl, finalReduce_steps s.cnt s.a, finalReduce_steps s.cnt s.b,
    closeCall_sum_packed s⟩

/-- A command of an open call in each phase: discarded, `SEQ_ERR`, or its effect (60_exceptions.md R118, R121). -/
theorem exec_permitted_active {i : Instr} (hi : permittedPhase i = .active) (s : State) :
    exec i s = .next
      (if s.phase = .fault then s else if s.phase = .idle then Faulted 3#2 s else effectOf i s) := by
  cases hp : s.phase with
  | idle =>
    rw [exec_eq, inPhase_other (by rw [hp, hi]; decide) (by rw [hp]; decide)]
    rfl
  | active => exact exec_permitted (hp.trans hi.symm)
  | fault =>
    rw [exec_eq, inPhase_fault hp]
    rfl

/-- A `FINISH` word in each phase: discarded, `ILLEGAL_ARG`, `SEQ_ERR`, or it closes the call (60_exceptions.md
R119). -/
theorem acceptWord_finish (s : State) (arg : Word) :
    acceptWord (0b11#2 ++ arg) s = .next
      (if s.phase = .fault then s
      else if arg ≠ 0#32 then Faulted 1#2 s
      else if s.phase = .idle then Faulted 3#2 s
      else closeCall s) := by
  have hdec : decode (0b11#2 ++ arg) = if arg = 0#32 then .command .finish else .fault .illegalArg :=
    decode_append 0b11#2 arg
  by_cases hf : s.phase = .fault
  · rw [if_pos hf, acceptWord_discard hf]
  rw [if_neg hf]
  by_cases harg : arg = 0#32
  · rw [if_pos harg] at hdec
    rw [if_neg (not_not_intro harg), acceptWord_command hdec, exec_permitted_active rfl, if_neg hf]
    rfl
  · rw [if_neg harg] at hdec
    rw [if_pos harg, acceptWord_fault hdec hf]
    rfl

/-- Settles O13: the discard in `FAULT` comes before the decode check on `arg`, and that before the phase check; in
`ACTIVE` the word closes the call. -/
theorem finishWordOutcomes : Obligations.FinishWordOutcomes := by
  intro s arg
  refine ⟨_, acceptWord_finish s arg, fun hp => ?_, fun hp harg => ?_, fun hp harg => ?_, fun hp harg => ?_⟩
  · exact sameReadable_of_eq (if_pos hp)
  · exact sameReadable_of_eq ((if_neg hp).trans (if_pos harg))
  · rw [if_neg (by rw [hp]; decide), if_neg (not_not_intro harg), if_pos hp]
    exact sameReadable_of_eq rfl
  · rw [if_neg (by rw [hp]; decide), if_neg (not_not_intro harg), if_neg (by rw [hp]; decide)]
    exact ⟨rfl, finalReduce_steps s.cnt s.a, finalReduce_steps s.cnt s.b⟩

end Sys2Proof.Machine

/-! PROOF. The arithmetic of the accumulators (44_arithmetic_laws.md R96 to R100, R106): the shift-reduction, the
packing, and the ranges of sums and results. -/

namespace Sys2Proof.Machine

/-- Settles O31: under the invariant a block has room for one more byte, and the bounds of a full block are the two
numbers. -/
theorem noAccumulatorWraps : Obligations.NoAccumulatorWraps := by
  intro s x hi hp
  have ⟨_, hopen, _⟩ := hi
  obtain ⟨hcnt, -, hbounds⟩ := hopen hp
  exact ⟨noWrap_of_inv x hi hp, bounds_top (bounds_succ hbounds x.isLt) (by omega)⟩

/-- Settles O40: the value is `redNat`, which is largest where both halves are. -/
theorem redNeverWraps : Obligations.RedNeverWraps := by
  intro v
  have hv := v.isLt
  rw [red_toNat, redNat]
  exact ⟨rfl, by omega⟩

theorem red_residue (v : Word) : (red v).toNat % 65521 = v.toNat % 65521 := by
  rw [red_toNat, redNat_mod]

theorem red_le (v : Word) : (red v).toNat ≤ v.toNat := by
  rw [red_toNat, redNat]
  omega

/-- The shift-reduction leaves exactly the values without a high half as they are. -/
theorem red_eq_self_iff (v : Word) : red v = v ↔ v.toNat < 65536 := by
  rw [← BitVec.toNat_inj, red_toNat, redNat]
  omega

theorem red_iterate_residue (v : Word) (n : Nat) : (red^[n] v).toNat % 65521 = v.toNat % 65521 := by
  induction n with
  | zero => rfl
  | succ n ih => rw [Function.iterate_succ_apply', red_residue, ih]

/-- Settles O41: one application keeps the residue, so any number of them does. -/
theorem redKeepsTheResidue : Obligations.RedKeepsTheResidue :=
  ⟨fun v => ⟨red_residue v, red_le v, red_eq_self_iff v⟩, by decide, by decide, by decide, red_iterate_residue⟩

/-- Settles O42: the packed value as a number, and its quotient and remainder by `2^16`. -/
theorem packingIsExact : Obligations.PackingIsExact := by
  intro a b ha hb
  have hpack : (packHalves b a).toNat = 65536 * b.toNat + a.toNat := packHalves_toNat (by omega) (by omega)
  refine ⟨hpack, BitVec.eq_of_toNat_eq ?_, BitVec.eq_of_toNat_eq ?_⟩
  · rw [resumeLow_toNat, loOf_toNat, hpack]
    omega
  · rw [resumeHigh_false_toNat, hiOf_toNat, hpack]
    omega

/-- Settles O43: only an executed `FINISH` adds to the history, and what it adds is its `sum`, two residues. -/
theorem emittedResultsAreResidues : Obligations.EmittedResultsAreResidues := by
  intro s t v h hv
  obtain ⟨-, hemit⟩ := onlyFinishEmits
  have hhist := hemit s t h
  have hsum := onlyFinishWritesSum s t h
  split at hhist
  next hc =>
    rw [if_pos hc] at hsum
    obtain ⟨-, hhigh, hlow⟩ := hsum
    obtain rfl : v = t.sum := by simpa using hv.symm.trans hhist
    omega
  next => simp [hv] at hhist

end Sys2Proof.Machine

/-! PROOF. The reference value (44_arithmetic_laws.md R102, R103, R105): its halves are sums modulo 65521, so each may
be computed from the residues of the seeds. -/

namespace Sys2Proof.Machine

/-- The loop's two sums in closed form (44_arithmetic_laws.md R102). -/
theorem adlerLoop_eq (a b : Nat) (bs : List Byte) :
    adlerLoop (a, b) bs = (a + byteSum bs, b + bs.length * a + weightedSum bs) := by
  induction bs generalizing a b with
  | nil => simp [adlerLoop, byteSum, weightedSum]
  | cons x xs ih =>
    rw [adlerLoop, ih, byteSum, weightedSum, List.length_cons, Prod.mk.injEq]
    constructor <;> ring

/-- Settles O45: the closed forms are the loop's sums. -/
theorem adlerIsTheLoop : Obligations.AdlerIsTheLoop := by
  intro r bs
  rw [adlerLoop_eq]
  rfl

/-- The low sum depends on its seed through the residue only. -/
theorem adlerLow_of_residue {r : Word} {l : Nat} (hl : (loOf r).toNat ≡ l [MOD 65521]) (bs : List Byte) :
    adlerLow r bs = (l + byteSum bs) % 65521 :=
  hl.add_right (byteSum bs)

/-- The high sum depends on both seeds through their residues only. -/
theorem adlerHigh_of_residues {r : Word} {h l : Nat} (hh : (hiOf r).toNat ≡ h [MOD 65521])
    (hl : (loOf r).toNat ≡ l [MOD 65521]) (bs : List Byte) :
    adlerHigh r bs = (h + bs.length * l + weightedSum bs) % 65521 :=
  (hh.add (hl.mul_left bs.length)).add_right (weightedSum bs)

theorem adler_congr {r r' : Word} {bs bs' : List Byte} (hlow : adlerLow r bs = adlerLow r' bs')
    (hhigh : adlerHigh r bs = adlerHigh r' bs') : adler r bs = adler r' bs' := by
  rw [adler, adler, adlerNat, adlerNat, hlow, hhigh]

theorem adler_range (r : Word) (bs : List Byte) : ResultRange (adler r bs) := by
  rw [ResultRange, adler_lo, adler_hi, adlerLow, adlerHigh]
  omega

/-- Settles O46: both sums depend on the residues of the halves only. -/
theorem resumeHalvesActAsResidues : Obligations.ResumeHalvesActAsResidues := by
  intro r r' bs hlow hhigh
  have hl : (loOf r).toNat ≡ (loOf r').toNat [MOD 65521] := hlow ▸ (Nat.mod_modEq _ _).symm
  have hh : (hiOf r).toNat ≡ (hiOf r').toNat [MOD 65521] := hhigh ▸ (Nat.mod_modEq _ _).symm
  exact adler_congr (adlerLow_of_residue hl bs) (adlerHigh_of_residues hh hl bs)

/-- Settles O47: the halves of the first part's value are the residues of its sums, from which the second part's sums
go on. -/
theorem adlerOfConcatenation : Obligations.AdlerOfConcatenation := by
  intro r b1 b2
  have hl : (loOf (adler r b1)).toNat ≡ (loOf r).toNat + byteSum b1 [MOD 65521] :=
    adler_lo r b1 ▸ Nat.mod_modEq _ _
  have hh : (hiOf (adler r b1)).toNat ≡ (hiOf r).toNat + b1.length * (loOf r).toNat + weightedSum b1 [MOD 65521] :=
    adler_hi r b1 ▸ Nat.mod_modEq _ _
  apply adler_congr
  · rw [adlerLow_of_residue hl, adlerLow, byteSum_append, Nat.add_assoc]
  · rw [adlerHigh_of_residues hh hl, adlerHigh, weightedSum_append, List.length_append]
    congr 1
    ring

end Sys2Proof.Machine

/-! PROOF. The bytes of an open call (44_arithmetic_laws.md R101, 41_accumulate.md R77): the accumulators keep the
residues of the running sums, from any engine whose accumulators are within the bounds of its block. -/

namespace Sys2Proof.Machine

/-- `cnt` is a count inside a block, and the accumulators are within the bounds for it (44_arithmetic_laws.md R100). -/
def InBlock (s : State) : Prop :=
  s.cnt.toNat ≤ 3849 ∧ WithinBounds s.a.toNat s.b.toNat s.cnt.toNat

/-- The engine without its record of faults and results, which no `DATA` reads. -/
def clearRecord (s : State) : State := { clearFlags s with history := [] }

@[simp] theorem clearRecord_cnt (s : State) : (clearRecord s).cnt = s.cnt := rfl

theorem clearRecord_inv {s : State} (hp : s.phase = .active) (hb : InBlock s) : Inv (clearRecord s) := by
  obtain ⟨hcnt, hbounds⟩ := hb
  refine ⟨?_, fun _ => ⟨hcnt, rfl, hbounds⟩, nofun, fun _ => nofun, nofun⟩
  simp [FaultFlags, clearRecord, hp]

theorem absorb_inBlock (x : Byte) {s : State} (hb : InBlock s) : InBlock (absorb x s) := by
  obtain ⟨hcnt, hbounds⟩ := hb
  exact absorb_bounds x hcnt hbounds

/-- Within a block's bounds a byte counts modulo 3850 and adds to both residues, whatever the engine's record. -/
theorem absorb_of_inBlock (x : Byte) {s : State} (hp : s.phase = .active) (hb : InBlock s) :
    (absorb x s).cnt.toNat = (s.cnt.toNat + 1) % 3850 ∧
      (absorb x s).a.toNat ≡ s.a.toNat + x.toNat [MOD 65521] ∧
      (absorb x s).b.toNat ≡ s.b.toNat + (s.a.toNat + x.toNat) [MOD 65521] := by
  have hi := clearRecord_inv hp hb
  obtain ⟨ha, hb', hc⟩ := absorb_congr (s := s) (t := clearRecord s) x rfl rfl rfl
  rw [ha, hb', hc]
  refine ⟨?_, absorb_residues x hi hp⟩
  obtain ⟨hcnt, -⟩ := hb
  have hv := absorb_exact x hi hp
  rw [clearRecord_cnt] at hv
  split at hv <;> obtain ⟨-, -, hc'⟩ := hv <;> omega

/-- Absorbing the bytes of a buffer in order. -/
def absorbAll (bs : List Byte) (s : State) : State := bs.foldl (fun u x => absorb x u) s

@[simp] theorem absorbAll_nil (s : State) : absorbAll [] s = s := rfl

@[simp] theorem absorbAll_cons (x : Byte) (xs : List Byte) (s : State) :
    absorbAll (x :: xs) s = absorbAll xs (absorb x s) := rfl

/-- Absorbing bytes writes `a`, `b` and `cnt` only. -/
theorem absorbAll_frame (bs : List Byte) (s : State) :
    (absorbAll bs s).phase = s.phase ∧ (absorbAll bs s).sum = s.sum ∧ (absorbAll bs s).done = s.done ∧
    (absorbAll bs s).err = s.err ∧ (absorbAll bs s).errCode = s.errCode ∧ (absorbAll bs s).history = s.history ∧
    (absorbAll bs s).input = s.input ∧ (absorbAll bs s).legacySeed = s.legacySeed ∧
    (absorbAll bs s).resetDraws = s.resetDraws := by
  induction bs generalizing s with
  | nil => simp
  | cons x xs ih => simpa only [absorbAll_cons, absorb_frame x s] using ih (absorb x s)

/-- The running sums of R101, in the registers. -/
theorem absorbAll_of_inBlock (bs : List Byte) {s : State} (hp : s.phase = .active) (hb : InBlock s) :
    (absorbAll bs s).cnt.toNat = (s.cnt.toNat + bs.length) % 3850 ∧
      (absorbAll bs s).a.toNat ≡ s.a.toNat + byteSum bs [MOD 65521] ∧
      (absorbAll bs s).b.toNat ≡ s.b.toNat + bs.length * s.a.toNat + weightedSum bs [MOD 65521] := by
  induction bs generalizing s with
  | nil =>
    obtain ⟨hcnt, -⟩ := hb
    refine ⟨(Nat.mod_eq_of_lt (Nat.lt_succ_of_le hcnt)).symm, rfl, ?_⟩
    simp [weightedSum, Nat.ModEq]
  | cons x xs ih =>
    obtain ⟨hc, ha, hb'⟩ := absorb_of_inBlock x hp hb
    obtain ⟨hphase, -⟩ := absorb_frame x s
    obtain ⟨hcs, has, hbs⟩ := ih (hphase.trans hp) (absorb_inBlock x hb)
    rw [absorbAll_cons, byteSum, weightedSum, List.length_cons]
    refine ⟨by omega, ?_, ?_⟩
    · calc (absorbAll xs (absorb x s)).a.toNat
        _ ≡ (absorb x s).a.toNat + byteSum xs [MOD 65521] := has
        _ ≡ s.a.toNat + x.toNat + byteSum xs [MOD 65521] := ha.add_right _
        _ = s.a.toNat + (x.toNat + byteSum xs) := by ring
    · calc (absorbAll xs (absorb x s)).b.toNat
        _ ≡ (absorb x s).b.toNat + xs.length * (absorb x s).a.toNat + weightedSum xs [MOD 65521] := hbs
        _ ≡ s.b.toNat + (s.a.toNat + x.toNat) + xs.length * (s.a.toNat + x.toNat) + weightedSum xs [MOD 65521] :=
          (hb'.add (ha.mul_left _)).add_right _
        _ = s.b.toNat + (xs.length + 1) * s.a.toNat + ((xs.length + 1) * x.toNat + weightedSum xs) := by ring

/-- In `ACTIVE` the words of a buffer absorb its bytes. -/
theorem runEvents_data (bs : List Byte) {s : State} (hp : s.phase = .active) :
    runEvents (bs.map fun x => .word (encode (.data x))) s = .next (absorbAll bs s) := by
  induction bs generalizing s with
  | nil => rfl
  | cons x xs ih =>
    obtain ⟨hphase, -⟩ := absorb_frame x s
    exact (runEvents_cons (applyEvent_permitted (i := .data x) hp) _).trans (ih (hphase.trans hp))

end Sys2Proof.Machine

/-! PROOF. Whole calls (44_arithmetic_laws.md R103, R105, R107, R108): one lemma says what a call does from any `IDLE`
engine with either strap, and every statement about calls is read off it. -/

namespace Sys2Proof.Machine

/-- The resume value that an engine with the given strap goes on from: the strap drops its high half
(40_session_control.md R69). -/
def seedTaken (strap : Bool) (v : Word) : Word := if strap then v &&& 0xFFFF#32 else v

@[simp] theorem seedTaken_false (v : Word) : seedTaken false v = v := rfl

@[simp] theorem seedTaken_true (v : Word) : seedTaken true v = v &&& 0xFFFF#32 := rfl

@[simp] theorem loOf_seedTaken (strap : Bool) (v : Word) : loOf (seedTaken strap v) = loOf v := by
  cases strap with
  | false => rfl
  | true =>
    apply BitVec.eq_of_toNat_eq
    rw [loOf_toNat, loOf_toNat, seedTaken_true, and_0xFFFF_toNat, Nat.mod_mod]

theorem hiOf_seedTaken_toNat (strap : Bool) (v : Word) :
    (hiOf (seedTaken strap v)).toNat = if strap then 0 else (hiOf v).toNat := by
  cases strap with
  | false => rfl
  | true =>
    rw [hiOf_toNat, seedTaken_true, and_0xFFFF_toNat, if_pos rfl]
    omega

/-- The low sum does not see the strap (44_arithmetic_laws.md R108). -/
theorem adlerLow_seedTaken (strap : Bool) (v : Word) (bs : List Byte) :
    adlerLow (seedTaken strap v) bs = adlerLow v bs := by
  rw [adlerLow, loOf_seedTaken, adlerLow]

/-- With the strap the high sum is short of the right one by the high half (44_arithmetic_laws.md R108). -/
theorem adlerHigh_seedTaken_true (v : Word) (bs : List Byte) :
    (adlerHigh (seedTaken true v) bs + (hiOf v).toNat) % 65521 = adlerHigh v bs := by
  rw [adlerHigh, hiOf_seedTaken_toNat, loOf_seedTaken, adlerHigh, if_pos rfl]
  omega

/-- Going on from a result without its high half gives the value that the whole result gives exactly when that half is
0: the high sums differ by it, and it is a residue. -/
theorem adler_seedTaken_eq_iff {v : Word} (hv : ResultRange v) (bs : List Byte) :
    adler (seedTaken true v) bs = adler v bs ↔ hiOf v = 0#16 := by
  obtain ⟨-, hhi⟩ := hv
  have hshort := adlerHigh_seedTaken_true v bs
  have hlt : adlerHigh (seedTaken true v) bs < 65521 := Nat.mod_lt _ (by decide)
  constructor
  · intro h
    have hsum : adlerHigh (seedTaken true v) bs = adlerHigh v bs := by rw [← adler_hi, h, adler_hi]
    apply BitVec.eq_of_toNat_eq
    rw [BitVec.toNat_zero]
    omega
  · intro h
    rw [h, BitVec.toNat_zero, Nat.add_zero, Nat.mod_eq_of_lt hlt] at hshort
    exact adler_congr (adlerLow_seedTaken true v bs) hshort

theorem resumeHigh_toNat (strap : Bool) (v : Word) :
    (resumeHigh strap (hiOf v)).toNat = (hiOf (seedTaken strap v)).toNat := by
  rw [hiOf_seedTaken_toNat]
  cases strap with
  | false => exact resumeHigh_false_toNat (hiOf v)
  | true => rfl

theorem callSeed_of_no_resume {c : Call} (h : c.resume = none) : callSeed c = 1#32 := by
  rw [callSeed, h, Option.getD_none]

/-- Either opening command seeds the accumulators with the halves of the call's resume value (40_session_control.md
R67, R68). -/
theorem effectOf_opening (c : Call) (s : State) :
    effectOf (openingInstr c.resume) s =
      openCall (resumeLow (loOf (callSeed c))) (resumeHigh s.legacySeed (hiOf (callSeed c))) s := by
  obtain ⟨_ | v, bs⟩ := c
  · have hlow : loOf 1#32 = 1#16 := by decide
    have hhigh : hiOf 1#32 = 0#16 := by decide
    rw [callSeed_of_no_resume rfl, hlow, hhigh]
    exact (effectOf_resume_one s).symm
  · rfl

theorem permittedPhase_opening (resume : Option Word) : permittedPhase (openingInstr resume) = .idle :=
  permittedPhase_eq_idle_iff.mpr ⟨resume, rfl⟩

/-- The engine after a call's opening command and its bytes. -/
def openedCall (c : Call) (s : State) : State := absorbAll c.bytes (effectOf (openingInstr c.resume) s)

/-- An open call writes `a`, `b`, `cnt`, `done` and `phase` only. -/
theorem openedCall_frame (c : Call) (s : State) :
    (openedCall c s).phase = .active ∧ (openedCall c s).sum = s.sum ∧ (openedCall c s).done = false ∧
    (openedCall c s).err = s.err ∧ (openedCall c s).errCode = s.errCode ∧ (openedCall c s).history = s.history ∧
    (openedCall c s).input = s.input ∧ (openedCall c s).legacySeed = s.legacySeed ∧
    (openedCall c s).resetDraws = s.resetDraws := by
  have h := absorbAll_frame c.bytes (effectOf (openingInstr c.resume) s)
  rw [effectOf_opening] at h
  rwa [openedCall, effectOf_opening]

/-- The sums of an open call (44_arithmetic_laws.md R101) and its count (41_accumulate.md R77). -/
theorem openedCall_sums (c : Call) (s : State) :
    (openedCall c s).cnt.toNat = c.bytes.length % 3850 ∧
      (openedCall c s).a.toNat % 65521 = adlerLow (seedTaken s.legacySeed (callSeed c)) c.bytes ∧
      (openedCall c s).b.toNat % 65521 = adlerHigh (seedTaken s.legacySeed (callSeed c)) c.bytes := by
  have hlo := (loOf (callSeed c)).isLt
  have hhi := resumeHigh_le s.legacySeed (hiOf (callSeed c))
  rw [openedCall, effectOf_opening]
  have h := absorbAll_of_inBlock c.bytes
    (s := openCall (resumeLow (loOf (callSeed c))) (resumeHigh s.legacySeed (hiOf (callSeed c))) s) rfl
    ⟨by simp, by simp [WithinBounds]; omega⟩
  rw [openCall_a, openCall_b, openCall_cnt, resumeLow_toNat, resumeHigh_toNat] at h
  rw [adlerLow, adlerHigh, loOf_seedTaken]
  obtain ⟨hc, ha, hb⟩ := h
  exact ⟨by simpa using hc, ha, hb⟩

theorem runEvents_unfinished (c : Call) {s : State} (hp : s.phase = .idle) :
    runEvents ((unfinishedWords c).map .word) s = .next (openedCall c s) := by
  have hopen := applyEvent_permitted (hp.trans (permittedPhase_opening c.resume).symm)
  have hactive : (effectOf (openingInstr c.resume) s).phase = .active := by
    rw [effectOf_opening, openCall_phase]
  rw [unfinishedWords, List.map_cons, List.map_map, runEvents_cons hopen]
  exact runEvents_data c.bytes hactive

theorem runEvents_call (c : Call) {s : State} (hp : s.phase = .idle) :
    runEvents ((callWords c).map .word) s = .next (closeCall (openedCall c s)) := by
  obtain ⟨hactive, -⟩ := openedCall_frame c s
  rw [callWords, List.map_append, runEvents_append _ _ (runEvents_unfinished c hp)]
  exact runEvents_cons (applyEvent_of_closesCall ⟨hactive, rfl⟩) []

/-- The result of a call is the reference value over the resume value that the engine takes. -/
theorem callResult_openedCall (c : Call) (s : State) :
    callResult (openedCall c s) = adler (seedTaken s.legacySeed (callSeed c)) c.bytes := by
  obtain ⟨-, ha, hb⟩ := openedCall_sums c s
  apply BitVec.eq_of_toNat_eq
  rw [callResult_toNat, ha, hb, adler, BitVec.toNat_ofNat, Nat.mod_eq_of_lt (adlerNat_lt _ _), adlerNat]

/-- A run over the events at the front of the input ends where their fold does (20_memory.md R40). -/
theorem runsTo_of_runEvents {evs rest : List InputEvent} {s t : State} {n : Nat} (hin : s.input = evs ++ rest)
    (hn : evs.length = n) (h : runEvents evs (withInput rest s) = .next t) : RunsTo n s t :=
  hn ▸ (runIsTheLeftFold evs rest s hin).trans h

/-- A whole call from any `IDLE` engine, with either strap (44_arithmetic_laws.md R103, R108). -/
theorem runsTo_of_beforeCall {c : Call} {rest : List InputEvent} {s : State} (h : BeforeCall c rest s) :
    ∃ t, RunsTo (c.bytes.length + 2) s t ∧
      t = { s with a := t.a, b := t.b, cnt := 0#12,
                   sum := adler (seedTaken s.legacySeed (callSeed c)) c.bytes, done := true,
                   history := s.history ++ [adler (seedTaken s.legacySeed (callSeed c)) c.bytes], input := rest } := by
  obtain ⟨hp, hin⟩ := h
  refine ⟨_, runsTo_of_runEvents hin (by simp [callWords, unfinishedWords]) (runEvents_call c hp), ?_⟩
  rw [← withInput_legacySeed s rest, ← callResult_openedCall c (withInput rest s)]
  -- What `FINISH` keeps of the open call is what the open call keeps of `s`.
  simp [State.ext_iff, openedCall_frame, hp]

/-- Settles O48: the sums of the open call, with the seeds that the strap leaves written out. -/
theorem openCallIsCongruent : Obligations.OpenCallIsCongruent := by
  intro s c rest hp hin
  obtain ⟨hcnt, ha, hb⟩ := openedCall_sums c (withInput rest s)
  have hrun := runsTo_of_runEvents (n := c.bytes.length + 1) hin (by simp [unfinishedWords]) (runEvents_unfinished c hp)
  refine ⟨_, hrun, ⟨?_, nofun⟩, ?_, ?_, hcnt⟩
  · simp [State.ext_iff, openedCall_frame]
  · rw [ha, adlerLow, loOf_seedTaken]
  · rw [hb, adlerHigh, loOf_seedTaken, hiOf_seedTaken_toNat, withInput_legacySeed]

/-- Settles O49: without the strap the engine takes the whole resume value. -/
theorem callComputesAdler : Obligations.CallComputesAdler := by
  intro s c rest h hstrap
  simpa only [hstrap, seedTaken_false] using runsTo_of_beforeCall h

/-- A run over the words of a call ends with the call's result shown. -/
theorem result_of_runsTo {c : Call} {rest : List InputEvent} {s t : State} (h : BeforeCall c rest s)
    (hr : RunsTo (c.bytes.length + 2) s t) :
    t.done = true ∧ t.sum = adler (seedTaken s.legacySeed (callSeed c)) c.bytes := by
  obtain ⟨u, hu, heq⟩ := runsTo_of_beforeCall h
  obtain rfl : t = u := Host.Outcome.next.inj (hr.symm.trans hu)
  rw [heq]
  exact ⟨rfl, rfl⟩

/-- Settles O50: with the strap the engine takes the masked resume value, whose low half is that of the whole one. -/
theorem legacyCallIgnoresHighHalf : Obligations.LegacyCallIgnoresHighHalf := by
  intro s c rest h hstrap
  obtain ⟨t, hrun, heq⟩ := runsTo_of_beforeCall h
  obtain ⟨hdone, hsum⟩ := result_of_runsTo h hrun
  have ⟨hp, _⟩ := h
  rw [hstrap] at hsum
  refine ⟨t, hrun, hsum, ?_, hdone, ?_, ?_, ?_, ?_, fun hnone => ?_⟩
  · rw [heq]
  · rw [heq, hp]
  · rw [heq]
  · rw [hsum, adler_lo, adlerLow_seedTaken]
  · rw [hsum, adler_hi, adlerHigh_seedTaken_true]
  · rw [hsum, callSeed_of_no_resume hnone]
    rfl

/-- Two calls chained by `RESUME`, and one call over both chunks: the second call goes on from what the strap leaves of
the first one's sum, the one call from all of it. -/
theorem chained_calls {strap : Bool} {resume : Option Word} {b1 b2 : List Byte} {s1 s2 s t1 : State}
    {r1 r2 r : List InputEvent} (hs1 : s1.legacySeed = strap) (hs2 : s2.legacySeed = strap)
    (hs : s.legacySeed = strap) (h1 : BeforeCall ⟨resume, b1⟩ r1 s1) (hrun1 : RunsTo (b1.length + 2) s1 t1)
    (h2 : BeforeCall ⟨some t1.sum, b2⟩ r2 s2) (h : BeforeCall ⟨resume, b1 ++ b2⟩ r s) :
    ∃ t2 t, RunsTo (b2.length + 2) s2 t2 ∧ RunsTo ((b1 ++ b2).length + 2) s t ∧
      t1.done = true ∧ t2.done = true ∧ t.done = true ∧
      t2.sum = adler (seedTaken strap t1.sum) b2 ∧ t.sum = adler t1.sum b2 := by
  obtain ⟨t2, hrun2, -⟩ := runsTo_of_beforeCall h2
  obtain ⟨t, hrun, -⟩ := runsTo_of_beforeCall h
  obtain ⟨hdone1, hsum1⟩ := result_of_runsTo h1 hrun1
  obtain ⟨hdone2, hsum2⟩ := result_of_runsTo h2 hrun2
  obtain ⟨hdone, hsum⟩ := result_of_runsTo h hrun
  rw [hs1] at hsum1
  rw [hs2] at hsum2
  rw [hs] at hsum
  refine ⟨t2, t, hrun2, hrun, hdone1, hdone2, hdone, hsum2, ?_⟩
  rw [hsum, hsum1]
  exact (adlerOfConcatenation _ b1 b2).symm

/-- Settles O51: without the strap the second call goes on from all of the first one's sum. -/
theorem chunkingIsTransparent : Obligations.ChunkingIsTransparent := by
  intro resume b1 b2 s1 s2 s r1 r2 r t1 hs1 hs2 hs h1 hrun1 h2 h
  obtain ⟨t2, t, hrun2, hrun, hdone1, hdone2, hdone, hsum2, hsum⟩ := chained_calls hs1 hs2 hs h1 hrun1 h2 h
  exact ⟨t2, t, hrun2, hrun, hdone1, hdone2, hdone, hsum2.trans hsum.symm⟩

/-- Settles O52: the second call goes on from the low half of the first one's sum. -/
theorem legacyChainingFails : Obligations.LegacyChainingFails := by
  intro resume b1 b2 s1 s2 s r1 r2 r t1 hs1 hs2 hs h1 hrun1 h2 h
  obtain ⟨t2, t, hrun2, hrun, hdone1, hdone2, hdone, hsum2, hsum⟩ := chained_calls hs1 hs2 hs h1 hrun1 h2 h
  obtain ⟨-, hsum1⟩ := result_of_runsTo h1 hrun1
  refine ⟨t2, t, hrun2, hrun, hdone1, hdone2, hdone, BitVec.eq_of_toNat_eq ?_, ?_⟩
  · rw [hsum2, hsum, adler_lo, adler_lo, adlerLow_seedTaken]
  · rw [hsum2, hsum]
    exact adler_seedTaken_eq_iff (hsum1 ▸ adler_range _ _) b2

/-- Settles O53: both runs end with the one value that the call and the strap determine. -/
theorem sameCallSameResult : Obligations.SameCallSameResult := by
  intro c s1 s2 r1 r2 h1 h2 hstrap
  obtain ⟨t1, hrun1, -⟩ := runsTo_of_beforeCall h1
  obtain ⟨t2, hrun2, -⟩ := runsTo_of_beforeCall h2
  obtain ⟨hdone1, hsum1⟩ := result_of_runsTo h1 hrun1
  obtain ⟨hdone2, hsum2⟩ := result_of_runsTo h2 hrun2
  refine ⟨t1, t2, hrun1, hrun2, ?_, hdone1, hdone2⟩
  rw [hsum1, hsum2, hstrap]

end Sys2Proof.Machine

/-! PROOF. Faults (60_exceptions.md R116 to R122): what a step on a word answers, decodable or not, the one way into
`FAULT`, and the one way out of it. -/

namespace Sys2Proof.Machine

/-- Settles O20: the step takes the word off the input and accepts it, and accepting it runs its command. -/
theorem stepRunsTheDecodedCommand : Obligations.StepRunsTheDecodedCommand := fun s _ rest _ hin hd _ =>
  (step_of_input hin).trans (acceptWord_command hd (withInput rest s))

/-- A command in the phase that does not permit it takes `SEQ_ERR` (60_exceptions.md R118). -/
theorem exec_not_permitted {i : Instr} {s : State} (hf : s.phase ≠ .fault) (hp : s.phase ≠ permittedPhase i) :
    exec i s = .next (Faulted 3#2 s) := by
  rw [exec_eq, inPhase_other hp hf]
  rfl

/-- A command in the phase that permits it takes no fault (60_exceptions.md R118). -/
theorem exec_permitted_no_fault {i : Instr} {s : State} (hp : s.phase = permittedPhase i) :
    ∃ t, exec i s = .next t ∧ t.phase ≠ .fault ∧ t.err = s.err ∧ t.errCode = s.errCode := by
  obtain ⟨herr, hcode, -, -⟩ := effectOf_keeps i s
  exact ⟨effectOf i s, exec_permitted hp, effectOf_not_fault i s hp, herr, hcode⟩

/-- Settles O14: `IDLE` permits the opening commands, `ACTIVE` the other two, and a command outside its phase takes
`SEQ_ERR`. -/
theorem commandOutOfPhaseTakesSeqErr : Obligations.CommandOutOfPhaseTakesSeqErr := by
  intro s
  have hseq (i : Instr) (p : Phase) (hf : p ≠ .fault) (hi : p ≠ permittedPhase i) (hp : s.phase = p) :
      ∃ t, exec i s = .next t ∧ SameReadable t (Faulted 3#2 s) :=
    answers_readable (exec_not_permitted (hp ▸ hf) (hp ▸ hi))
  refine ⟨hseq .start .active nofun nofun, fun hi lo => hseq (.resume hi lo) .active nofun nofun,
    fun x => hseq (.data x) .idle nofun nofun, hseq .finish .idle nofun nofun, fun i h => ?_⟩
  have hperm : s.phase = permittedPhase i := by
    obtain ⟨hp, rfl | ⟨hi, lo, rfl⟩⟩ | ⟨hp, ⟨x, rfl⟩ | rfl⟩ := h <;> exact hp
  exact exec_permitted_no_fault hperm

/-- Settles O15: outside `FAULT` the decode check comes before the phase check, and the cause is the decoder's. -/
theorem undecodableWordTakesItsFault : Obligations.UndecodableWordTakesItsFault := by
  intro s cw rest f hp hin hd
  have hstep : step s = .next (Faulted (causeOf f).code (withInput rest s)) :=
    (step_of_input hin).trans (acceptWord_fault hd hp)
  cases f with
  | illegalArg => exact answers_readable hstep
  | badByte => exact answers_readable hstep

/-- An event brings the engine into `FAULT` only as a word that takes a fault: resets and permitted commands do not
lead there. -/
theorem applyEvent_enters_fault {ev : InputEvent} {s t : State} (h : applyEvent ev s = .next t)
    (hp : s.phase ≠ .fault) (ht : t.phase = .fault) : ∃ cw c, ev = .word cw ∧ t = takeFault c s := by
  obtain ⟨-, rfl⟩ | ⟨_, -, hf, -⟩ | ⟨cw, c, hev, -, htake⟩ | ⟨_, i, -, -, hperm, rfl⟩ := applyEvent_cases h
  · cases ht
  · exact absurd hf hp
  · exact ⟨cw, c, hev, htake⟩
  · exact absurd ht (effectOf_not_fault i s hperm)

/-- Settles O16: a step into `FAULT` applies a word that takes a fault, and every cause has a nonzero code. -/
theorem faultEntryWritesThreeRegisters : Obligations.FaultEntryWritesThreeRegisters := by
  intro s t h hp ht
  obtain ⟨-, rfl⟩ | ⟨ev, rest, hin, hev⟩ := step_cases h
  · exact absurd ht hp
  · obtain ⟨cw, c, rfl, rfl⟩ := applyEvent_enters_fault (s := withInput rest s) hev hp ht
    exact ⟨cw, rest, hin, sameReadable_of_eq rfl, c.code_ne_zero⟩

theorem exec_discard {s : State} (hp : s.phase = .fault) (i : Instr) : exec i s = .next s := by
  rw [exec_eq, inPhase_fault hp]

theorem step_discard {cw : CommandWord} {rest : List InputEvent} {s : State} (hp : s.phase = .fault)
    (hin : NextWord cw rest s) : step s = .next (withInput rest s) :=
  (step_of_input hin).trans (acceptWord_discard (s := withInput rest s) hp cw)

/-- Settles O17: in `FAULT` commands and words are discarded, so of the events only a reset changes the phase. -/
theorem faultPhaseDiscards : Obligations.FaultPhaseDiscards := by
  intro s hp
  refine ⟨fun i => answers_readable (exec_discard hp i), fun cw rest hin => answers_readable (step_discard hp hin),
    fun t h ht => ?_⟩
  obtain ⟨-, rfl⟩ | ⟨ev, rest, hin, -⟩ := step_cases h
  · exact absurd hp ht
  · cases ev with
    | reset => exact ⟨rest, hin⟩
    | word cw =>
      rw [step_discard hp hin] at h
      cases h
      exact absurd hp ht

end Sys2Proof.Machine

/-! PROOF. Sequences of whole calls (60_exceptions.md R124): each starts in `IDLE`, where the one before has ended. -/

namespace Sys2Proof.Machine

/-- The engine after the words of whole calls. -/
def afterCalls (calls : List Call) (s : State) : State := calls.foldl (fun u c => closeCall (openedCall c u)) s

@[simp] theorem afterCalls_nil (s : State) : afterCalls [] s = s := rfl

@[simp] theorem afterCalls_cons (c : Call) (calls : List Call) (s : State) :
    afterCalls (c :: calls) s = afterCalls calls (closeCall (openedCall c s)) := rfl

/-- From `IDLE` the words of whole calls are these calls, one after the other. -/
theorem runEvents_calls (calls : List Call) {s : State} (hp : s.phase = .idle) :
    runEvents ((calls.flatMap callWords).map .word) s = .next (afterCalls calls s) := by
  induction calls generalizing s with
  | nil => rfl
  | cons c calls ih =>
    rw [List.flatMap_cons, List.map_append, runEvents_append _ _ (runEvents_call c hp)]
    exact ih (closeCall_phase _)

/-- Whole calls from `IDLE` end in `IDLE`, and leave the error registers and the input behind them alone. -/
theorem afterCalls_frame (calls : List Call) {s : State} (hp : s.phase = .idle) :
    (afterCalls calls s).phase = .idle ∧ (afterCalls calls s).err = s.err ∧
    (afterCalls calls s).errCode = s.errCode ∧ (afterCalls calls s).input = s.input := by
  induction calls generalizing s with
  | nil => simp [hp]
  | cons c calls ih => simpa [openedCall_frame] using ih (closeCall_phase (openedCall c s))

/-- Each call emits its reference value, in the order of the calls (44_arithmetic_laws.md R103). -/
theorem afterCalls_history (calls : List Call) (s : State) :
    (afterCalls calls s).history =
      s.history ++ calls.map (fun c => adler (seedTaken s.legacySeed (callSeed c)) c.bytes) := by
  induction calls generalizing s with
  | nil => simp
  | cons c calls ih => simp [ih, openedCall_frame, callResult_openedCall]

/-- Settles O54: the run is the fold over the words of the calls, which keeps the error registers and emits one value
for each call. -/
theorem wholeCallsNeverFault : Obligations.WholeCallsNeverFault := by
  intro calls s rest hp hin
  have hrun := runsTo_of_runEvents hin (List.length_map _) (runEvents_calls calls (s := withInput rest s) hp)
  obtain ⟨hidle, herr, hcode, hrest⟩ := afterCalls_frame calls (s := withInput rest s) hp
  have hhist := afterCalls_history calls (withInput rest s)
  refine ⟨_, hrun, hidle, herr, hcode, hrest, ?_, ⟨_, hhist.symm⟩,
    fun hnil hclear => ⟨hrest.trans hnil, hidle, herr.trans hclear⟩⟩
  rw [hhist, List.length_append, List.length_map, withInput_history]

end Sys2Proof.Machine

/-! PROOF. Several engines (60_exceptions.md R132). -/

namespace Sys2Proof.Machine

/-- Settles O39: stepping an engine changes its own entry of the list. -/
theorem instancesShareNothing : Obligations.InstancesShareNothing := fun engines _ _ hne =>
  List.getElem?_modify_ne stepped engines hne.symm

end Sys2Proof.Machine

/-! PROOF. Reset and the edges that make no event (70_reset_and_hazards.md R140, R154). -/

namespace Sys2Proof.Machine

theorem clockEdge_of_event {e : PortEdge} {ev : InputEvent} (h : edgeEvent e = some ev) (s : State) :
    clockEdge e s = applyEvent ev s := by
  simp only [clockEdge, h]

theorem clockEdge_of_no_event {e : PortEdge} (h : edgeEvent e = none) (s : State) : clockEdge e s = .next s := by
  simp only [clockEdge, h]

/-- Reset overrides acceptance (70_reset_and_hazards.md R140). -/
theorem edgeEvent_reset {e : PortEdge} (hr : e.rst = true) : edgeEvent e = some .reset := by
  simp [edgeEvent, hr]

/-- A word presented to a ready engine is accepted (20_memory.md R32). -/
theorem edgeEvent_accept {e : PortEdge} (hr : e.rst = false) (hv : e.cmdValid = true) (hready : e.cmdReady = true) :
    edgeEvent e = some (.word e.cmd) := by
  simp [edgeEvent, hr, hv, hready]

/-- Without reset, an edge at which nothing is presented or the engine is not ready makes no event. -/
theorem edgeEvent_none {e : PortEdge} (hr : e.rst = false) (h : e.cmdValid = false ∨ e.cmdReady = false) :
    edgeEvent e = none := by
  obtain hv | hready := h
  · simp [edgeEvent, hr, hv]
  · simp [edgeEvent, hr, hready]

/-- Settles O21: with no event to take, the step answers the state itself. -/
theorem withoutInputStateIsKept : Obligations.WithoutInputStateIsKept := fun _ hin =>
  answers_readable (step_of_no_input hin)

/-- Settles O26: in each of the three cases the pins decide the event, and the edge applies it. -/
theorem resetWinsAtTheEdge : Obligations.ResetWinsAtTheEdge := fun _ s =>
  ⟨fun hr => clockEdge_of_event (edgeEvent_reset hr) s,
    fun hr hv hready => clockEdge_of_event (edgeEvent_accept hr hv hready) s,
    fun hr h => answers_readable (clockEdge_of_no_event (edgeEvent_none hr h) s)⟩

/-- Settles O30: the reset leaves `IDLE` with clear flags, where the invariant speaks of the emitted results only. -/
theorem resetEstablishesInvariant : Obligations.ResetEstablishesInvariant := by
  intro s t rest hin hh h
  rw [step_of_input hin] at h
  obtain rfl : applyReset (withInput rest s) = t := Host.Outcome.next.inj h
  exact inv_of_clear_idle rfl rfl rfl rfl hh

end Sys2Proof.Machine
